-- ==== Sys2Proof/Word.lean ====
section
/-! DEFINITION. The word types of the sha-3 CORE (00_scope.md R7, 30_encoding.md R50). -/

namespace Sys2Proof

/-- A lane: a 64-bit unsigned integer, bit 0 the least significant (R7). -/
abbrev Lane := BitVec 64

/-- A byte of the message buffer or of the output buffer (R30). -/
abbrev Byte := BitVec 8

/-- A command word (R50). -/
abbrev CmdWord := BitVec 32

/-- The digest sizes the hardware supports, `SIZES` of R4. -/
inductive DigestSize where
  | s224
  | s256
  | s384
  | s512
  deriving DecidableEq, Repr

end Sys2Proof
end

