-- ==== Sys2Proof/Syntax.lean ====
section
/-! DEFINITION. The 14 commands (30_encoding.md R58), one constructor per row of the opcode table. -/

namespace Sys2Proof

/-- A command with its operands at the widths of formats N, R, L, S and B (R52 to R56).
`ABSORB` alone carries the 64-bit operand `DIN` the host presents beside the word (R50, R61). -/
inductive Instr where
  | theta
  | rhopi
  | chi
  | iota (rnd : BitVec 5)
  | round (rnd : BitVec 5)
  | permute
  | init (size : BitVec 16)
  | absorb (idx : BitVec 5) (din : Lane)
  | absblk
  | squeeze (len : BitVec 16)
  | mclr
  | push (byte : Byte)
  | pad
  | hash (size : BitVec 16)
  deriving DecidableEq, Repr

/-- The mnemonic of a command (R58). -/
def Instr.mnemonic : Instr → String
  | .theta => "THETA"
  | .rhopi => "RHOPI"
  | .chi => "CHI"
  | .iota _ => "IOTA"
  | .round _ => "ROUND"
  | .permute => "PERMUTE"
  | .init _ => "INIT"
  | .absorb _ _ => "ABSORB"
  | .absblk => "ABSBLK"
  | .squeeze _ => "SQUEEZE"
  | .mclr => "MCLR"
  | .push _ => "PUSH"
  | .pad => "PAD"
  | .hash _ => "HASH"

end Sys2Proof
end

