-- ==== Sys2Proof/Decode.lean ====
section
/-! DEFINITION. The decoder over the opcode map (30_encoding.md R51 to R60) and, after it, the encoder. -/

namespace Sys2Proof

/-- Why a word is illegal (R60). Both raise IllegalCommand. -/
inductive DecodeError where
  /-- The opcode byte is in no row of R58. -/
  | unassignedOpcode
  /-- The opcode is assigned and a reserved bit of its format is 1. -/
  | reservedBit
  deriving DecidableEq, Repr

/-- `op = cmd[31:24]` (R51). -/
def opField (w : CmdWord) : BitVec 8 := w.extractLsb' 24 8

/-- `rnd = cmd[4:0]` (R53, R57). -/
def rndField (w : CmdWord) : BitVec 5 := w.extractLsb' 0 5

/-- `idx = cmd[4:0]` (R54, R57). -/
def idxField (w : CmdWord) : BitVec 5 := w.extractLsb' 0 5

/-- `imm16 = cmd[15:0]` (R55, R57). -/
def imm16Field (w : CmdWord) : BitVec 16 := w.extractLsb' 0 16

/-- `byte = cmd[7:0]` (R56, R57). -/
def byteField (w : CmdWord) : Byte := w.extractLsb' 0 8

/-- A row of the opcode map of R58, with the command its operand fields and `DIN` make. -/
structure OpcodeRow where
  op : BitVec 8
  mask : CmdWord
  pattern : CmdWord
  make : CmdWord → Lane → Instr

/-- The opcode map of R58, in the spec's order. -/
def opcodeMap : List OpcodeRow :=
  [ ⟨0x01, 0xFFFFFFFF, 0x01000000, fun _ _ => .theta⟩,
    ⟨0x02, 0xFFFFFFFF, 0x02000000, fun _ _ => .rhopi⟩,
    ⟨0x03, 0xFFFFFFFF, 0x03000000, fun _ _ => .chi⟩,
    ⟨0x04, 0xFFFFFFE0, 0x04000000, fun w _ => .iota (rndField w)⟩,
    ⟨0x05, 0xFFFFFFE0, 0x05000000, fun w _ => .round (rndField w)⟩,
    ⟨0x06, 0xFFFFFFFF, 0x06000000, fun _ _ => .permute⟩,
    ⟨0x10, 0xFFFF0000, 0x10000000, fun w _ => .init (imm16Field w)⟩,
    ⟨0x11, 0xFFFFFFE0, 0x11000000, fun w din => .absorb (idxField w) din⟩,
    ⟨0x12, 0xFFFFFFFF, 0x12000000, fun _ _ => .absblk⟩,
    ⟨0x13, 0xFFFF0000, 0x13000000, fun w _ => .squeeze (imm16Field w)⟩,
    ⟨0x20, 0xFFFFFFFF, 0x20000000, fun _ _ => .mclr⟩,
    ⟨0x21, 0xFFFFFF00, 0x21000000, fun w _ => .push (byteField w)⟩,
    ⟨0x22, 0xFFFFFFFF, 0x22000000, fun _ _ => .pad⟩,
    ⟨0x30, 0xFFFF0000, 0x30000000, fun w _ => .hash (imm16Field w)⟩ ]

/-- `decode(cmd)` of R59, total on every 32-bit word: the row whose opcode is the word's, then the mask test. -/
def decode (cmd : CmdWord) (din : Lane) : Except DecodeError Instr :=
  match opcodeMap.find? (fun row => row.op == opField cmd) with
  | none => .error .unassignedOpcode
  | some row => if cmd &&& row.mask = row.pattern then .ok (row.make cmd din) else .error .reservedBit

/-- The word of a command: opcode, zeros in the reserved bits, operand field as it stands (R51 to R58). -/
def encode : Instr → CmdWord
  | .theta => 0x01#8 ++ 0#24
  | .rhopi => 0x02#8 ++ 0#24
  | .chi => 0x03#8 ++ 0#24
  | .iota rnd => 0x04#8 ++ 0#19 ++ rnd
  | .round rnd => 0x05#8 ++ 0#19 ++ rnd
  | .permute => 0x06#8 ++ 0#24
  | .init size => 0x10#8 ++ 0#8 ++ size
  | .absorb idx _ => 0x11#8 ++ 0#19 ++ idx
  | .absblk => 0x12#8 ++ 0#24
  | .squeeze len => 0x13#8 ++ 0#8 ++ len
  | .mclr => 0x20#8 ++ 0#24
  | .push byte => 0x21#8 ++ 0#16 ++ byte
  | .pad => 0x22#8 ++ 0#24
  | .hash size => 0x30#8 ++ 0#8 ++ size

/-- The `DIN` a command needs beside its word; every command but `ABSORB` ignores it (R61), and 0 stands for it there. -/
def dinOf : Instr → Lane
  | .absorb _ din => din
  | .theta => 0
  | .rhopi => 0
  | .chi => 0
  | .iota _ => 0
  | .round _ => 0
  | .permute => 0
  | .init _ => 0
  | .absblk => 0
  | .squeeze _ => 0
  | .mclr => 0
  | .push _ => 0
  | .pad => 0
  | .hash _ => 0

/-- The command word inside an instruction whose bits are numbered as the opcode table numbers them: bits 31:0. -/
def tableCmd (nbits w : Nat) : CmdWord := BitVec.ofNat 32 (w % 2 ^ nbits)

/-- The operand `DIN` inside the same numbering: the 64 bits above the command word, 0 where the table gives them none. -/
def tableDin (nbits w : Nat) : Lane := BitVec.ofNat 64 ((w % 2 ^ nbits) >>> 32)

/-- What the decoder reads from an instruction of `nbits` bits `w` (the host's interface). -/
def decodeTableWord (nbits w : Nat) : Option Instr :=
  match decode (tableCmd nbits w) (tableDin nbits w) with
  | .ok i => some i
  | .error _ => none

/-- One command in the assembler text of R62, with decimal operands. -/
def Instr.assembly (i : Instr) : String :=
  match i with
  | .iota rnd => i.mnemonic ++ " " ++ toString rnd.toNat
  | .round rnd => i.mnemonic ++ " " ++ toString rnd.toNat
  | .init size => i.mnemonic ++ " " ++ toString size.toNat
  | .absorb idx din => i.mnemonic ++ " " ++ toString idx.toNat ++ ", " ++ toString din.toNat
  | .squeeze len => i.mnemonic ++ " " ++ toString len.toNat
  | .push byte => i.mnemonic ++ " " ++ toString byte.toNat
  | .hash size => i.mnemonic ++ " " ++ toString size.toNat
  | .theta => i.mnemonic
  | .rhopi => i.mnemonic
  | .chi => i.mnemonic
  | .permute => i.mnemonic
  | .absblk => i.mnemonic
  | .mclr => i.mnemonic
  | .pad => i.mnemonic

end Sys2Proof
end

