-- ==== Sys2Proof/Machine/Params.lean ====
section
/-! DEFINITION. The fixed parameters of the hardware: rates and derived sizes (00_scope.md R4, R5), padding bytes (R4). -/

namespace Sys2Proof.Machine

/-- `NROUNDS`: rounds per permutation (R4). -/
def nRounds : Nat := 24

/-- `DOMAIN`, the first padding byte (R4). -/
def domainByte : Byte := 0x06

/-- `FINAL`, the last padding byte (R4). -/
def finalByte : Byte := 0x80

/-- `MERGED`, the padding byte that stands alone (R4). -/
def mergedByte : Byte := 0x86

/-- `OUT_CAP`: the capacity of the output buffer in bytes (R4). -/
def outCap : Nat := 8191

/-- The digest size in bits. -/
def sizeBits : DigestSize → Nat
  | .s224 => 224
  | .s256 => 256
  | .s384 => 384
  | .s512 => 512

/-- `rate(size)` in bits, defined on the four sizes only (R4, conflict C5). -/
def rate : DigestSize → Nat
  | .s224 => 1152
  | .s256 => 1088
  | .s384 => 832
  | .s512 => 576

/-- `rate_bytes(size)` (R5). -/
def rateBytes (d : DigestSize) : Nat := rate d / 8

/-- `rate_lanes(size)` (R5). -/
def rateLanes (d : DigestSize) : Nat := rate d / 64

/-- The capacity in bits, which no rule reads (R5). -/
def capacityBits (d : DigestSize) : Nat := 1600 - rate d

/-- The digest length in bytes (R5). -/
def digestBytes (d : DigestSize) : Nat := sizeBits d / 8

/-- The digest size a 16-bit number names, if it is one of 224, 256, 384, 512 (R15, R133). -/
def legalSize? (n : BitVec 16) : Option DigestSize :=
  if n = 224 then some .s224
  else if n = 256 then some .s256
  else if n = 384 then some .s384
  else if n = 512 then some .s512
  else none

/-- The 16-bit number that names a digest size, the content of `SIZE` (R15). -/
def sizeWord (d : DigestSize) : BitVec 16 := BitVec.ofNat 16 (sizeBits d)

end Sys2Proof.Machine
end

