-- ==== Sys2Proof/Config.lean ====
section
/-! DEFINITION. What an implementation fixes (R4) and the free values of the spec (R24, R161). -/

namespace Sys2Proof

/-- The open parameter of R4: the capacity of the message buffer in bytes, `none` when it is unbounded.
State carries it, so that the model takes it as an argument, as decision D3 asks (DESIGN CHOICE, log entry 4). -/
structure Config where
  msgCap : Option Nat
  deriving DecidableEq, Repr

/-- R4: `MSG_CAP >= 144`, or unbounded. -/
abbrev Config.wf (c : Config) : Prop := ∀ n ∈ c.msgCap, 144 ≤ n

/-- What the `n`-th reset leaves in lane `i` (R24, R161: unspecified; a model must not pick zero).
A free value: it has no body, so no proof can see it (DESIGN CHOICE, log entry 3). -/
opaque Config.unspecifiedLane : Nat → Nat → Lane

/-- What the `n`-th reset leaves in `SIZE` (R24, R161: unspecified).
A free value: it has no body, so no proof can see it (DESIGN CHOICE, log entry 3). -/
opaque Config.unspecifiedSize : Nat → BitVec 16

end Sys2Proof
end

