-- ==== Sys2Proof/Machine/Lanes.lean ====
section
/-! DEFINITION. The lane array `A`: 5 rows by 5 columns of lanes (10_state.md R10 to R12). -/

namespace Sys2Proof.Machine

/-- Five like things, at indices 0 to 4. -/
structure Five (α : Type) where
  e0 : α
  e1 : α
  e2 : α
  e3 : α
  e4 : α
  deriving DecidableEq, Repr

/-- The thing at index `i`. -/
def fiveGet {α : Type} (v : Five α) (i : Fin 5) : α :=
  match i.val with
  | 0 => v.e0
  | 1 => v.e1
  | 2 => v.e2
  | 3 => v.e3
  | _ => v.e4

/-- The five things a function of the index gives. -/
def fiveOf {α : Type} (f : Fin 5 → α) : Five α := ⟨f 0, f 1, f 2, f 3, f 4⟩

/-- The lane array: five rows of five lanes, the row always the first index (R10). -/
abbrev LaneArray := Five (Five Lane)

/-- `A[r][c]`: row `r`, column `c`; the column is Keccak's x and the row its y (R12). -/
def laneAt (a : LaneArray) (r c : Fin 5) : Lane := fiveGet (fiveGet a r) c

/-- The lane array whose lane at row `r`, column `c` is `f r c`: every right-hand side is read before any lane is written (R21). -/
def lanesOf (f : Fin 5 → Fin 5 → Lane) : LaneArray := fiveOf fun r => fiveOf fun c => f r c

/-- All 25 lanes zero, "zero state". -/
def zeroLanes : LaneArray := lanesOf fun _ _ => 0

/-- The flat index of position `(r, c)`, row-major (R11). -/
def flatIndex (r c : Fin 5) : Nat := 5 * r.val + c.val

/-- The row of flat lane index `i` (R11). -/
def rowOf (i : Nat) : Fin 5 := Fin.ofNat 5 (i / 5)

/-- The column of flat lane index `i` (R11). -/
def colOf (i : Nat) : Fin 5 := Fin.ofNat 5 (i % 5)

/-- `lane(i) = A[i div 5][i mod 5]`, for `0 <= i <= 24` (R8, R11). -/
def flatLane (a : LaneArray) (i : Nat) : Lane := laneAt a (rowOf i) (colOf i)

/-- `A[r][c] <- v`. -/
def setLane (a : LaneArray) (r c : Fin 5) (v : Lane) : LaneArray :=
  lanesOf fun r' c' => if r' = r ∧ c' = c then v else laneAt a r' c'

end Sys2Proof.Machine
end

