-- ==== Sys2Proof/Machine/State.lean ====
section
/-! DEFINITION. The architectural state and its reset values (10_state.md), as plain data. -/

namespace Sys2Proof.Machine

/-- A byte space (20_memory.md R30): the bytes that exist, by rising address; an address not listed holds no byte (log entry 6). -/
abbrev Memory := List Host.Cell

/-- The eight faults a command can raise (60_exceptions.md R130). They are machine states, not stops. -/
inductive FaultCode where
  | illegalCommand
  | notConfigured
  | illegalSize
  | illegalRound
  | illegalLaneIndex
  | illegalLength
  | bufferUnderrun
  | bufferOverflow
  deriving DecidableEq, Repr

/-- The six status registers SR0 to SR5 (R20). -/
inductive StatusReg where
  | status
  | size
  | mlen
  | blk
  | olen
  | errcmd
  deriving DecidableEq, Repr

/-- What the host can do to the core (70_reset_and_hazards.md R166). -/
inductive HostAction where
  /-- Issue a command word with the data operand `DIN` beside it. -/
  | command (cmd : CmdWord) (din : Lane)
  /-- Read a status register. -/
  | readStatus (r : StatusReg)
  /-- Read the byte `OUT[k]`. -/
  | readOut (k : Nat)
  /-- Assert reset. -/
  | reset
  deriving DecidableEq, Repr

/-- What the host gets back from a read (R166). -/
inductive HostReply where
  /-- The value of a status register; `MLEN` and `BLK` are natural numbers (R20). -/
  | status (r : StatusReg) (value : Nat)
  /-- The read is refused and gets no value: SR1 while `CFG = 0` (R20, R161, U4; log entry 12). The machine goes on. -/
  | statusRefused (r : StatusReg)
  /-- The byte `OUT[k]`. -/
  | output (k : Nat) (value : Byte)
  deriving DecidableEq, Repr

/-- Stops that only a state outside the spec's reachable states can meet (log entries 5 and 6).
The spec's own faults are not here: they are next states (R139). -/
inductive Fault where
  /-- Raised by ABSORB, ABSBLK, SQUEEZE and PAD in a state with `CFG = 1` whose `SIZE` is not one of the four sizes.
  R15 says no such state exists, and no run from reset reaches one. Safe: the model stops. -/
  | sizeNotLegal
  /-- Raised by ABSBLK and HASH in a state that lists no byte at an address of `MSG` below `MLEN`.
  R18 says no such state exists, and no run from reset reaches one. Safe: the model stops. -/
  | messageByteAbsent
  /-- Raised by a host read in a state that lists no byte at an address of `OUT` below `OLEN`.
  R19 says no such state exists, and no run from reset reaches one. Safe: the model stops. -/
  | outputByteAbsent
  deriving DecidableEq, Repr

/-- Refusals. The one of a host read is the spec's own (R33). -/
inductive Refusal where
  /-- An instruction that has no meaning yet, by mnemonic; raised by no arm of this model. Safe: the model stops. -/
  | notModelled (mnemonic : String)
  /-- Raised by a host read of `OUT[k]` with `k >= OLEN`: "the model refuses it" (R33, 93 U5). Safe: the model stops. -/
  | outputPastEnd
  deriving DecidableEq, Repr

/-- Everything the spec gives the machine (10_state.md section 1), and four fields of the model's own. -/
structure State where
  /-- `A`, the 25 lanes (R10). -/
  lanes : LaneArray
  /-- `CFG` (R14). -/
  cfg : Bool
  /-- `SIZE` (R15). -/
  size : BitVec 16
  /-- `ERR` (R16). -/
  err : BitVec 4
  /-- `ERRCMD` (R16). -/
  errcmd : CmdWord
  /-- `MSG` (R18). -/
  msg : Memory
  /-- `MLEN` (R18). -/
  mlen : Nat
  /-- `BLK` (R17). -/
  blk : Nat
  /-- `OUT` (R19). -/
  out : Memory
  /-- `OLEN` (R19). -/
  olen : BitVec 13
  /-- The model's own: the parameter `MSG_CAP` (R4), which no step writes (log entry 4). -/
  config : Config
  /-- The model's own: how many resets the host has made, the argument of reset's free values (log entry 3). -/
  resets : Nat
  /-- The model's own: the host's coming actions, oldest first (log entry 1). -/
  input : List HostAction
  /-- The model's own: the answers host reads have been given, oldest first (log entry 2). -/
  replies : List HostReply
  deriving DecidableEq, Repr

/-- The lanes the `n`-th reset leaves: unspecified (R24, R161; log entry 3). -/
def unspecifiedLanes (n : Nat) : LaneArray := lanesOf fun r c => Config.unspecifiedLane n (flatIndex r c)

/-- The machine right after reset (R24, R160), with `MSG_CAP` unbounded and nothing issued by the host yet. -/
def State.reset : State where
  lanes := unspecifiedLanes 0
  cfg := false
  size := Config.unspecifiedSize 0
  err := 0
  errcmd := 0
  msg := []
  mlen := 0
  blk := 0
  out := []
  olen := 0
  config := ⟨none⟩
  resets := 0
  input := []
  replies := []

end Sys2Proof.Machine
end

