-- ==== Sys2Proof/Machine/Flags.lean ====
section
/-! DEFINITION. The flags `CFG` and `ERR`, the fault codes and the tests a command makes (10_state.md R14, R16; 60_exceptions.md).
No command sets a flag by arithmetic (R16). -/

namespace Sys2Proof.Machine

/-- The value a fault writes to `ERR` (R130). -/
def faultCode : FaultCode → BitVec 4
  | .illegalCommand => 1
  | .notConfigured => 2
  | .illegalSize => 3
  | .illegalRound => 4
  | .illegalLaneIndex => 5
  | .illegalLength => 6
  | .bufferUnderrun => 7
  | .bufferOverflow => 8

/-- A fault has been recorded and reset has not cleared it: `ERR != 0` (R16, R140). -/
def halted (s : State) : Bool := s.err != 0

/-- A message of `n` bytes fits the buffer: `n <= MSG_CAP` (R31, R138). -/
def fits (s : State) (n : Nat) : Bool :=
  match s.config.msgCap with
  | none => true
  | some cap => decide (n ≤ cap)

/-- The digest size that `SIZE` names (R15). -/
def sizeOf? (s : State) : Option DigestSize := legalSize? s.size

/-- SR0: `ERR` in bits 4:1, `CFG` in bit 0, zeros above (R20). -/
def statusWord (s : State) : BitVec 32 := 0#27 ++ s.err ++ BitVec.ofBool s.cfg

end Sys2Proof.Machine
end

