-- ==== Sys2Proof/Machine/Operands.lean ====
section
/-! DEFINITION. Byte order between bytes and lanes, rotation, and addresses (00_scope.md R7, 20_memory.md R34 to R38). -/

namespace Sys2Proof.Machine

/-- `rotl64(v, n)` for `0 <= n <= 63` (R7). -/
def rotl64 (v : Lane) (n : Nat) : Lane := if n = 0 then v else (v <<< n) ||| (v >>> (64 - n))

/-- The number a byte sequence is, little-endian: the first byte is least significant (R7, R34). -/
def leNat : List Byte → Nat
  | [] => 0
  | b :: bs => b.toNat + 256 * leNat bs

/-- `le64(b0, ..., b7)` (R7, R34). -/
def le64 (bs : List Byte) : Lane := BitVec.ofNat 64 (leNat bs)

/-- `bytes_le64(v)`: the eight bytes of a lane, least significant first (R7, R35). -/
def bytesLe64 (v : Lane) : List Byte := (List.range 8).map fun j => v.extractLsb' (8 * j) 8

/-- The byte address of word `j` of block `blk` (R92, R94). -/
def wordAddress (d : DigestSize) (blk j : Nat) : Nat := blk * rateBytes d + 8 * j

end Sys2Proof.Machine
end

