-- ==== Sys2Proof/Machine/Ops.lean ====
section
/-! DEFINITION. The named operations over memory and registers, taking a fault and leaving it, and the tests every command shares. -/

namespace Sys2Proof.Machine

/-- The byte at an address, `none` where no byte exists (20_memory.md R31, R33; log entry 6). -/
def Memory.read : Memory → Nat → Option Byte
  | [], _ => none
  | (a, b) :: m, k => if k = a then some b else Memory.read m k

/-- Write one byte, keeping the addresses rising. -/
def Memory.write : Memory → Nat → Byte → Memory
  | [], k, v => [(k, v)]
  | (a, b) :: m, k, v =>
    if k < a then (k, v) :: (a, b) :: m
    else if k = a then (a, v) :: m
    else (a, b) :: Memory.write m k v

/-- The `n` bytes from address `k` on, if all of them exist. -/
def Memory.readBytes (m : Memory) : Nat → Nat → Option (List Byte)
  | _, 0 => some []
  | k, n + 1 =>
    match m.read k with
    | none => none
    | some b =>
      match Memory.readBytes m (k + 1) n with
      | none => none
      | some bs => some (b :: bs)

/-- `MemRead(k, 8)`: eight bytes as a little-endian lane (R8, R34). -/
def Memory.readWord (m : Memory) (k : Nat) : Option Lane := (m.readBytes k 8).map le64

/-- The `n` words from address `k` on. -/
def Memory.readWords (m : Memory) : Nat → Nat → Option (List Lane)
  | _, 0 => some []
  | k, n + 1 =>
    match m.readWord k with
    | none => none
    | some w =>
      match Memory.readWords m (k + 8) n with
      | none => none
      | some ws => some (w :: ws)

/-- The memory whose bytes, from address `k` on, are a byte sequence. -/
def Memory.listFrom : Nat → List Byte → Memory
  | _, [] => []
  | k, b :: bs => (k, b) :: Memory.listFrom (k + 1) bs

/-- The memory that holds a byte sequence at addresses 0, 1, ... (R31, R32). -/
def Memory.ofBytes (bs : List Byte) : Memory := Memory.listFrom 0 bs

/-- The bytes of a memory in address order. -/
def Memory.bytes (m : Memory) : List Byte := m.map Prod.snd

/-- The canonical form: addresses strictly rising. An unlisted address holds no byte, so no listed entry equals it. -/
abbrev Memory.wf (m : Memory) : Prop := (m.map Prod.fst).Pairwise (· < ·)

/-- The bytes that exist are those at addresses 0 to `n - 1` (R18, R19). -/
abbrev Memory.holds (m : Memory) (n : Nat) : Prop := m.map Prod.fst = List.range n

/-- Write the lane array. -/
def State.setLanes (s : State) (a : LaneArray) : State := { s with lanes := a }

/-- Write `SIZE` and set `CFG` (R14, R15). -/
def State.setSize (s : State) (n : BitVec 16) : State := { s with size := n, cfg := true }

/-- Write `MSG` and `MLEN` together. -/
def State.setMsg (s : State) (m : Memory) (n : Nat) : State := { s with msg := m, mlen := n }

/-- Write `BLK`. -/
def State.setBlk (s : State) (n : Nat) : State := { s with blk := n }

/-- Write `OUT` and `OLEN` together. -/
def State.setOut (s : State) (m : Memory) (n : BitVec 13) : State := { s with out := m, olen := n }

/-- Write `ERR` and `ERRCMD` together. -/
def State.setErr (s : State) (e : BitVec 4) (cmd : CmdWord) : State := { s with err := e, errcmd := cmd }

/-- The host's coming actions become `q`. -/
def State.setInput (s : State) (q : List HostAction) : State := { s with input := q }

/-- One more answer to the host. -/
def State.addReply (s : State) (r : HostReply) : State := { s with replies := s.replies ++ [r] }

/-- What a fault does (60_exceptions.md R139): `ERR <- code`, `ERRCMD <- cmd`, nothing else; control goes nowhere. -/
def State.faulted (s : State) (f : FaultCode) (cmd : CmdWord) : State := s.setErr (faultCode f) cmd

/-- Taking a fault is a next state of the machine (R139). -/
def raise (f : FaultCode) (cmd : CmdWord) (s : State) : Host.Outcome State Fault Refusal := .next (s.faulted f cmd)

/-- Reset, the only way out of a fault (R140, R160): every register of the spec at its reset value, the lanes and `SIZE`
unspecified anew (R161); the parameter and the host's own side are not the core's (log entries 1 to 4). -/
def State.hostReset (s : State) : State :=
  { State.reset with
    lanes := unspecifiedLanes (s.resets + 1)
    size := Config.unspecifiedSize (s.resets + 1)
    resets := s.resets + 1
    config := s.config
    input := s.input
    replies := s.replies }

/-- First test of every command: while `ERR != 0` it is ignored and changes no state (R140, R141). -/
def whenRunning (s : State) (k : Host.Outcome State Fault Refusal) : Host.Outcome State Fault Refusal :=
  if halted s then .next s else k

/-- Test of the commands that read `A` or `SIZE`: NotConfigured when `CFG = 0` (R132). -/
def whenConfigured (i : Instr) (s : State) (k : Host.Outcome State Fault Refusal) : Host.Outcome State Fault Refusal :=
  if s.cfg then k else raise .notConfigured (encode i) s

/-- A further test of a command: it goes on when `ok`, and raises `f` when not. -/
def require (ok : Bool) (f : FaultCode) (i : Instr) (s : State) (k : Host.Outcome State Fault Refusal) :
    Host.Outcome State Fault Refusal :=
  if ok then k else raise f (encode i) s

/-- The digest size in `SIZE`, for a command that has passed `whenConfigured`; R15 says that it is one of the four (log entry 5). -/
def withSize (s : State) (k : DigestSize → Host.Outcome State Fault Refusal) : Host.Outcome State Fault Refusal :=
  match sizeOf? s with
  | none => .fault .sizeNotLegal
  | some d => k d

/-- The digest size an operand names: IllegalSize when it is not one of the four (R133). -/
def whenLegalSize (n : BitVec 16) (i : Instr) (s : State) (k : DigestSize → Host.Outcome State Fault Refusal) :
    Host.Outcome State Fault Refusal :=
  match legalSize? n with
  | none => raise .illegalSize (encode i) s
  | some d => k d

/-- The next state of a command that reads message bytes; R18 says that every byte below `MLEN` exists (log entry 6). -/
def fromMessage (t : Option State) : Host.Outcome State Fault Refusal :=
  match t with
  | none => .fault .messageByteAbsent
  | some s => .next s

end Sys2Proof.Machine
end

