-- ==== Sys2Proof/Machine/Padding.lean ====
section
/-! DEFINITION. The padding engine and the message buffer: MCLR, PUSH, PAD (42_padding.md). -/

namespace Sys2Proof.Machine

/-- `MCLR` (R110). -/
def execMclr (s : State) : Host.Outcome State Fault Refusal :=
  whenRunning s <| .next ((s.setMsg [] 0).setBlk 0)

/-- `MemWrite(MLEN, 1, b)`, then `MLEN <- MLEN + 1` (R8, R31). -/
def State.appended (s : State) (b : Byte) : State := s.setMsg (s.msg.write s.mlen b) (s.mlen + 1)

/-- A byte sequence appended byte by byte in order (R39). -/
def State.appendedAll (s : State) (bs : List Byte) : State := bs.foldl State.appended s

/-- `PUSH byte` (R111, R138). -/
def execPush (byte : Byte) (s : State) : Host.Outcome State Fault Refusal :=
  whenRunning s <| require (fits s (s.mlen + 1)) .bufferOverflow (.push byte) s <| .next (s.appended byte)

/-- `q = rb - (MLEN mod rb)`, the number of bytes padding appends (R112). -/
def padCount (d : DigestSize) (n : Nat) : Nat := rateBytes d - n % rateBytes d

/-- The `q` bytes padding appends (R112, closed form R113): the test of the one-byte case is by `mod` (conflict C2). -/
def padBytes (q : Nat) : List Byte :=
  if q = 1 then [mergedByte] else domainByte :: (List.replicate (q - 2) 0 ++ [finalByte])

/-- The length after padding (R113, R120). -/
def paddedLength (d : DigestSize) (n : Nat) : Nat := n + padCount d n

/-- The state change of `PAD` (R112). -/
def State.padded (s : State) (d : DigestSize) : State := s.appendedAll (padBytes (padCount d s.mlen))

/-- `PAD` (R112, R138). -/
def execPad (s : State) : Host.Outcome State Fault Refusal :=
  whenRunning s <| whenConfigured .pad s <| withSize s fun d =>
    require (fits s (paddedLength d s.mlen)) .bufferOverflow .pad s <| .next (s.padded d)

end Sys2Proof.Machine
end

