-- ==== Sys2Proof/Machine/Permutation.lean ====
section
/-! DEFINITION. The permutation engine: RC, OFF, the step functions, one round, Keccak-p[1600,24] (40_permutation.md). -/

namespace Sys2Proof.Machine

/-- `RC[rnd]` (R71), entry by entry, for a round index the IllegalRound test has passed (R134); the table has no entry from 24 on. -/
def roundConstant : Nat → Lane
  | 0 => 0x0000000000000001
  | 1 => 0x0000000000008082
  | 2 => 0x800000000000808A
  | 3 => 0x8000000080008000
  | 4 => 0x000000000000808B
  | 5 => 0x0000000080000001
  | 6 => 0x8000000080008081
  | 7 => 0x8000000000008009
  | 8 => 0x000000000000008A
  | 9 => 0x0000000000000088
  | 10 => 0x0000000080008009
  | 11 => 0x000000008000000A
  | 12 => 0x000000008000808B
  | 13 => 0x800000000000008B
  | 14 => 0x8000000000008089
  | 15 => 0x8000000000008003
  | 16 => 0x8000000000008002
  | 17 => 0x8000000000000080
  | 18 => 0x000000000000800A
  | 19 => 0x800000008000000A
  | 20 => 0x8000000080008081
  | 21 => 0x8000000000008080
  | 22 => 0x0000000080000001
  | 23 => 0x8000000080008008
  | _ => 0

/-- The table `OFF` of R72: first index the row, second the column. -/
def offsetTable : Five (Five Nat) :=
  ⟨⟨0, 1, 62, 28, 27⟩, ⟨36, 44, 6, 55, 20⟩, ⟨3, 10, 43, 25, 39⟩, ⟨41, 45, 15, 21, 8⟩, ⟨18, 2, 61, 56, 14⟩⟩

/-- `OFF[r][c]` (R72). -/
def rotOffset (r c : Fin 5) : Nat := fiveGet (fiveGet offsetTable r) c

/-- The parity `C[c]` of column `c` (R73). -/
def columnParity (a : LaneArray) (c : Fin 5) : Lane :=
  laneAt a 0 c ^^^ laneAt a 1 c ^^^ laneAt a 2 c ^^^ laneAt a 3 c ^^^ laneAt a 4 c

/-- Theta (R73): `D[c] = C[c+4] XOR rotl64(C[c+1], 1)`, by column (conflict C1); indices are modulo 5. -/
def thetaLanes (a : LaneArray) : LaneArray :=
  let C : Five Lane := fiveOf (columnParity a)
  let D : Five Lane := fiveOf fun c => fiveGet C (c + 4) ^^^ rotl64 (fiveGet C (c + 1)) 1
  lanesOf fun r c => laneAt a r c ^^^ fiveGet D c

/-- Rho and pi (R74), read from the destination side: row `r`, column `c` takes the lane at row `c`, column `c + 3r`,
rotated by the offset of that source position; indices are modulo 5. -/
def rhoPiLanes (a : LaneArray) : LaneArray :=
  lanesOf fun r c => rotl64 (laneAt a c (c + 3 * r)) (rotOffset c (c + 3 * r))

/-- Chi (R75); indices are modulo 5. -/
def chiLanes (a : LaneArray) : LaneArray :=
  lanesOf fun r c => laneAt a r c ^^^ ((~~~ laneAt a r (c + 1)) &&& laneAt a r (c + 2))

/-- Iota (R76): lane (0,0) alone is XORed with the round's constant. -/
def iotaLanes (rnd : Nat) (a : LaneArray) : LaneArray := setLane a 0 0 (laneAt a 0 0 ^^^ roundConstant rnd)

/-- One round (R77): theta, rho-and-pi, chi, iota. -/
def roundLanes (a : LaneArray) (rnd : Nat) : LaneArray := iotaLanes rnd (chiLanes (rhoPiLanes (thetaLanes a)))

/-- The permutation (R78): rounds 0 to 23 in order. -/
def permuteLanes (a : LaneArray) : LaneArray := (List.range nRounds).foldl roundLanes a

/-- `THETA` (R73). -/
def execTheta (s : State) : Host.Outcome State Fault Refusal :=
  whenRunning s <| whenConfigured .theta s <| .next (s.setLanes (thetaLanes s.lanes))

/-- `RHOPI` (R74). -/
def execRhopi (s : State) : Host.Outcome State Fault Refusal :=
  whenRunning s <| whenConfigured .rhopi s <| .next (s.setLanes (rhoPiLanes s.lanes))

/-- `CHI` (R75). -/
def execChi (s : State) : Host.Outcome State Fault Refusal :=
  whenRunning s <| whenConfigured .chi s <| .next (s.setLanes (chiLanes s.lanes))

/-- A round index the table has a constant for (R134). -/
def legalRound (rnd : BitVec 5) : Bool := decide (rnd.toNat < nRounds)

/-- `IOTA rnd` (R76, R134). -/
def execIota (rnd : BitVec 5) (s : State) : Host.Outcome State Fault Refusal :=
  whenRunning s <| whenConfigured (.iota rnd) s <| require (legalRound rnd) .illegalRound (.iota rnd) s <|
    .next (s.setLanes (iotaLanes rnd.toNat s.lanes))

/-- `ROUND rnd` (R77, R134). -/
def execRound (rnd : BitVec 5) (s : State) : Host.Outcome State Fault Refusal :=
  whenRunning s <| whenConfigured (.round rnd) s <| require (legalRound rnd) .illegalRound (.round rnd) s <|
    .next (s.setLanes (roundLanes s.lanes rnd.toNat))

/-- `PERMUTE` (R78). -/
def execPermute (s : State) : Host.Outcome State Fault Refusal :=
  whenRunning s <| whenConfigured .permute s <| .next (s.setLanes (permuteLanes s.lanes))

end Sys2Proof.Machine
end

