-- ==== Sys2Proof/Machine/Sponge.lean ====
section
/-! DEFINITION. The sponge engine: INIT, ABSORB, ABSBLK, SQUEEZE (41_sponge.md). -/

namespace Sys2Proof.Machine

/-- The state change of `INIT` (R90): all lanes zero, `SIZE` and `CFG`, `BLK`, `OUT`. `MSG` is not touched. -/
def State.initialised (s : State) (d : DigestSize) : State :=
  (((s.setLanes zeroLanes).setSize (sizeWord d)).setBlk 0).setOut [] 0

/-- `INIT size` (R90, R133). -/
def execInit (size : BitVec 16) (s : State) : Host.Outcome State Fault Refusal :=
  whenRunning s <| whenLegalSize size (.init size) s fun d => .next (s.initialised d)

/-- The lane array with `w` XORed into flat lane `i` (R91). -/
def xorLane (a : LaneArray) (i : Nat) (w : Lane) : LaneArray :=
  setLane a (rowOf i) (colOf i) (laneAt a (rowOf i) (colOf i) ^^^ w)

/-- `ABSORB idx` with `DIN` (R91, R135). -/
def execAbsorb (idx : BitVec 5) (din : Lane) (s : State) : Host.Outcome State Fault Refusal :=
  whenRunning s <| whenConfigured (.absorb idx din) s <| withSize s fun d =>
    require (decide (idx.toNat < rateLanes d)) .illegalLaneIndex (.absorb idx din) s <|
      .next (s.setLanes (xorLane s.lanes idx.toNat din))

/-- The words of a block XORed into lanes 0, 1, ... (R92); lanes beyond the last word are XORed with nothing (R95). -/
def xorWords (a : LaneArray) (ws : List Lane) : LaneArray :=
  lanesOf fun r c => laneAt a r c ^^^ ws.getD (flatIndex r c) 0

/-- The state change of `ABSBLK` (R92), if every byte of the block exists. -/
def State.absorbedBlock (s : State) (d : DigestSize) : Option State :=
  match s.msg.readWords (wordAddress d s.blk 0) (rateLanes d) with
  | none => none
  | some ws => some ((s.setLanes (permuteLanes (xorWords s.lanes ws))).setBlk (s.blk + 1))

/-- The block at `BLK` is wholly inside `MSG`: `(BLK + 1) * rate_bytes <= MLEN` (R92, R137). -/
def blockPresent (d : DigestSize) (s : State) : Bool := decide (s.blk * rateBytes d + rateBytes d ≤ s.mlen)

/-- `ABSBLK` (R92, R137). -/
def execAbsblk (s : State) : Host.Outcome State Fault Refusal :=
  whenRunning s <| whenConfigured .absblk s <| withSize s fun d =>
    require (blockPresent d s) .bufferUnderrun .absblk s <| fromMessage (s.absorbedBlock d)

/-- The first `n` lanes serialised little-endian in flat order (R35, R93). -/
def laneBytes (a : LaneArray) (n : Nat) : List Byte := (List.range n).flatMap fun i => bytesLe64 (flatLane a i)

/-- The loop of R93: extract the rate lanes, then permute, until `need` bytes are there.
Each turn adds `rate_bytes >= 72` bytes, so `need` turns are more than enough. -/
def squeezeLoop (d : DigestSize) (need : Nat) : Nat → LaneArray → List Byte → LaneArray × List Byte
  | 0, a, buf => (a, buf)
  | turns + 1, a, buf =>
    if need ≤ (buf ++ laneBytes a (rateLanes d)).length then (permuteLanes a, buf ++ laneBytes a (rateLanes d))
    else squeezeLoop d need turns (permuteLanes a) (buf ++ laneBytes a (rateLanes d))

/-- The state change of `SQUEEZE` for `need >= 1` bytes (R93). -/
def State.squeezed (s : State) (d : DigestSize) (need : Nat) : State :=
  (s.setLanes (squeezeLoop d need need s.lanes []).1).setOut
    (Memory.ofBytes ((squeezeLoop d need need s.lanes []).2.take need)) (BitVec.ofNat 13 need)

/-- `need = len div 8` (R93). -/
def squeezeBytes (len : BitVec 16) : Nat := len.toNat / 8

/-- `SQUEEZE len` (R93, R136). -/
def execSqueeze (len : BitVec 16) (s : State) : Host.Outcome State Fault Refusal :=
  whenRunning s <| whenConfigured (.squeeze len) s <|
    require (decide (squeezeBytes len ≠ 0)) .illegalLength (.squeeze len) s <| withSize s fun d =>
      .next (s.squeezed d (squeezeBytes len))

end Sys2Proof.Machine
end

