-- ==== Sys2Proof/Machine/Hash.lean ====
section
/-! DEFINITION. The top-level routine HASH (43_hash.md). -/

namespace Sys2Proof.Machine

/-- `ABSBLK` `n` times (R120). -/
def State.absorbedBlocks (d : DigestSize) : Nat → State → Option State
  | 0, s => some s
  | n + 1, s =>
    match s.absorbedBlock d with
    | none => none
    | some t => State.absorbedBlocks d n t

/-- `INIT size`, `PAD`, every block absorbed (R120). -/
def State.absorbedMessage (s : State) (d : DigestSize) : Option State :=
  State.absorbedBlocks d (((s.initialised d).padded d).mlen / rateBytes d) ((s.initialised d).padded d)

/-- The state change of `HASH` (R120): `INIT`, `PAD`, the `ABSBLK`s, `SQUEEZE size`. -/
def State.hashed (s : State) (d : DigestSize) : Option State :=
  (s.absorbedMessage d).map fun t => t.squeezed d (digestBytes d)

/-- `HASH size` (R120, R133, R138); both tests come before any state is written. -/
def execHash (size : BitVec 16) (s : State) : Host.Outcome State Fault Refusal :=
  whenRunning s <| whenLegalSize size (.hash size) s fun d =>
    require (fits s (rateBytes d * (s.mlen / rateBytes d + 1))) .bufferOverflow (.hash size) s <|
      fromMessage (s.hashed d)

end Sys2Proof.Machine
end

