-- ==== Sys2Proof/Machine/Dispatch.lean ====
section
/-! DEFINITION. One arm per constructor of Instr, each one direct call of its meaning. -/

namespace Sys2Proof.Machine

def exec (i : Instr) (s : State) : Host.Outcome State Fault Refusal :=
  match i with
  | .theta => Sys2Proof.Machine.execTheta s
  | .rhopi => Sys2Proof.Machine.execRhopi s
  | .chi => Sys2Proof.Machine.execChi s
  | .iota rnd => Sys2Proof.Machine.execIota rnd s
  | .round rnd => Sys2Proof.Machine.execRound rnd s
  | .permute => Sys2Proof.Machine.execPermute s
  | .init size => Sys2Proof.Machine.execInit size s
  | .absorb idx din => Sys2Proof.Machine.execAbsorb idx din s
  | .absblk => Sys2Proof.Machine.execAbsblk s
  | .squeeze len => Sys2Proof.Machine.execSqueeze len s
  | .mclr => Sys2Proof.Machine.execMclr s
  | .push byte => Sys2Proof.Machine.execPush byte s
  | .pad => Sys2Proof.Machine.execPad s
  | .hash size => Sys2Proof.Machine.execHash size s

end Sys2Proof.Machine
end

