-- ==== Sys2Proof/Machine/HostPort.lean ====
section
/-! DEFINITION. The host's interactions with the core: command, status read, output read, reset
(70_reset_and_hazards.md R166; 10_state.md R20; 20_memory.md R33). -/

namespace Sys2Proof.Machine

/-- A command word at the port (R59, R140, R141): ignored while `ERR != 0`, then decoded, then executed. -/
def runCommand (cmd : CmdWord) (din : Lane) (s : State) : Host.Outcome State Fault Refusal :=
  whenRunning s <|
    match decode cmd din with
    | .error _ => raise .illegalCommand cmd s
    | .ok i => exec i s

/-- The value of a status register (R20); SR1 has none while `CFG = 0` (R20, R161, U4). -/
def statusValue (s : State) : StatusReg → Option Nat
  | .status => some (statusWord s).toNat
  | .size => if s.cfg then some s.size.toNat else none
  | .mlen => some s.mlen
  | .blk => some s.blk
  | .olen => some s.olen.toNat
  | .errcmd => some s.errcmd.toNat

/-- What a read of a status register gets back: its value, and where it has none the refusal of the read (R20, R161, U4; log entry 12). -/
def statusReply (s : State) (r : StatusReg) : HostReply :=
  match statusValue s r with
  | none => .statusRefused r
  | some v => .status r v

/-- A host read of a status register: the core does nothing, whether the read is answered or refused (R20, R166). -/
def readStatus (r : StatusReg) (s : State) : Host.Outcome State Fault Refusal := .next (s.addReply (statusReply s r))

/-- A host read of `OUT[k]`: no side effect on the core (R33, R166). -/
def readOut (k : Nat) (s : State) : Host.Outcome State Fault Refusal :=
  if k < s.olen.toNat then
    match s.out.read k with
    | none => .fault .outputByteAbsent
    | some b => .next (s.addReply (.output k b))
  else .refused .outputPastEnd

/-- One action of the host (R166). -/
def perform (act : HostAction) (s : State) : Host.Outcome State Fault Refusal :=
  match act with
  | .command cmd din => runCommand cmd din s
  | .readStatus r => readStatus r s
  | .readOut k => readOut k s
  | .reset => .next s.hostReset

/-- The next action of the host, taken from the head of `input`; an idle core stays as it is (R164; log entry 1). -/
def nextAction (s : State) : Host.Outcome State Fault Refusal :=
  match s.input with
  | [] => .next s
  | act :: rest => perform act (s.setInput rest)

/-- `s` with a command, its bits numbered as the opcode table numbers them, as the host's next action. -/
def withNextCommand (s : State) (nbits w : Nat) : State :=
  s.setInput (.command (tableCmd nbits w) (tableDin nbits w) :: s.input)

/-- The commands of `PUSHB` (30_encoding.md R63). -/
def pushB (bs : List Byte) : List Instr := bs.map Instr.push

/-- The commands of `HASHB` (R63). -/
def hashB (size : BitVec 16) (bs : List Byte) : List Instr := .mclr :: (pushB bs ++ [.hash size])

/-- The UTF-8 bytes of a text, the host's own work (R64). -/
def utf8Bytes (text : String) : List Byte := text.toUTF8.data.toList.map UInt8.toBitVec

/-- The commands of `PUSHS` (R64). -/
def pushS (text : String) : List Instr := pushB (utf8Bytes text)

/-- The commands of `HASHSTR` (R64). -/
def hashStr (size : BitVec 16) (text : String) : List Instr := hashB size (utf8Bytes text)

/-- A command as the host issues it. -/
def issue (i : Instr) : HostAction := .command (encode i) (dinOf i)

/-- The digits of `HEX` (R122). -/
def hexDigits : List Char :=
  ['0', '1', '2', '3', '4', '5', '6', '7', '8', '9', 'a', 'b', 'c', 'd', 'e', 'f']

/-- The two characters of one byte, the high half first (R122). -/
def hexByte (b : Byte) : List Char := [hexDigits.getD (b.toNat / 16) '0', hexDigits.getD (b.toNat % 16) '0']

/-- `HEX(bs)`, lowercase hexadecimal, a rendering and no part of the hardware (R122, conflict C3). -/
def hex (bs : List Byte) : String := String.ofList (bs.flatMap hexByte)

end Sys2Proof.Machine
end

