-- ==== Sys2Proof/Machine/Step.lean ====
section
/-! DEFINITION. One step: the host's next action, and nothing where there is none. -/

namespace Sys2Proof.Machine

/-- One step of the machine (00_scope.md R6, 70_reset_and_hazards.md R166, R167). -/
def step (s : State) : Host.Outcome State Fault Refusal := nextAction s

/-- `s` with the host issuing that instruction next (the host's interface; log entry 1). -/
def State.withFetchWord (s : State) (nbits w : Nat) : State := withNextCommand s nbits w

end Sys2Proof.Machine
end

