-- ==== Sys2Proof/WellFormed.lean ====
section
/-! DEFINITION. The legal operand values of formats R, L and S (30_encoding.md R53 to R55). -/

namespace Sys2Proof

/-- The operand value is one that some configuration of the core accepts (R53, R54, R55; R56: every byte).
An operand outside these values still decodes, and the command then faults by value (R59).
For a lane index the legal values are those below `rate_lanes` of some digest size, the largest of which is 18 (R5, R54). -/
def Instr.wellFormed : Instr → Bool
  | .iota rnd => decide (rnd.toNat < Machine.nRounds)
  | .round rnd => decide (rnd.toNat < Machine.nRounds)
  | .init size => (Machine.legalSize? size).isSome
  | .hash size => (Machine.legalSize? size).isSome
  | .absorb idx _ => decide (idx.toNat < Machine.rateLanes .s224)
  | .squeeze len => decide (0 < len.toNat / 8)
  | .push _ => true
  | .theta => true
  | .rhopi => true
  | .chi => true
  | .permute => true
  | .absblk => true
  | .mclr => true
  | .pad => true

end Sys2Proof
end

