-- ==== Sys2Proof/Safety.lean ====
section
/-! DEFINITION. What claims are stated in: the invariants of reachable states (10_state.md R23), a run that ends well
(70_reset_and_hazards.md R167), command sequences, and the digest of a byte sequence as a function of its own (R1, R123). -/

namespace Sys2Proof.Machine

/-- R23.3: the message fits the buffer, whose capacity is legal (R4). -/
abbrev State.capacityInv (s : State) : Prop := s.config.wf ∧ fits s s.mlen = true

/-- R18: the bytes of `MSG` are those at addresses 0 to `MLEN - 1`. -/
abbrev State.messageInv (s : State) : Prop := s.msg.holds s.mlen

/-- R19: the bytes of `OUT` are those at addresses 0 to `OLEN - 1`. -/
abbrev State.outputInv (s : State) : Prop := s.out.holds s.olen.toNat

/-- R15, R23.2: when `CFG = 1`, `SIZE` is one of the four sizes. -/
abbrev State.sizeInv (s : State) : Prop := s.cfg = true → (sizeOf? s).isSome = true

/-- R17, R23.4: when `CFG = 1`, the blocks absorbed lie inside the message; before that none is absorbed and nothing is output. -/
abbrev State.blockInv (s : State) : Prop :=
  (s.cfg = true → ∀ d ∈ sizeOf? s, s.blk * rateBytes d ≤ s.mlen) ∧ (s.cfg = false → s.blk = 0 ∧ s.olen = 0)

/-- R130: `ERR` is 0 or one of the eight codes; no fault, no recorded word (R16, R24). -/
abbrev State.errInv (s : State) : Prop := s.err.toNat ≤ 8 ∧ (s.err = 0 → s.errcmd = 0)

/-- The invariant of every reachable state. -/
abbrev State.inv (s : State) : Prop :=
  s.capacityInv ∧ s.messageInv ∧ s.outputInv ∧ s.sizeInv ∧ s.blockInv ∧ s.errInv

/-- A run has ended well: nothing more is asked and no fault is recorded (R167). -/
abbrev State.endsWell (s : State) : Prop := s.input = [] ∧ halted s = false

/-- What the host observes at the end of a run that ended well: the status registers and `OUT` (R167). -/
def State.observation (s : State) : List (Option Nat) × List Byte :=
  ([StatusReg.status, .size, .mlen, .blk, .olen, .errcmd].map (statusValue s), s.out.bytes)

/-- Commands executed one after the other (R41). -/
def execAll : List Instr → State → Host.Outcome State Fault Refusal
  | [], s => .next s
  | i :: is, s =>
    match exec i s with
    | .next t => execAll is t
    | .fault f => .fault f
    | .refused r => .refused r

/-- The ten commands that read `A` or `SIZE` (R130, code 2). -/
def readsConfig : Instr → Bool
  | .theta => true
  | .rhopi => true
  | .chi => true
  | .iota _ => true
  | .round _ => true
  | .permute => true
  | .absorb _ _ => true
  | .absblk => true
  | .squeeze _ => true
  | .pad => true
  | .init _ => false
  | .mclr => false
  | .push _ => false
  | .hash _ => false

/-- A length exceeds the capacity of the message buffer: `n > MSG_CAP` (R138). -/
abbrev exceedsCap (s : State) (n : Nat) : Prop := ∃ cap ∈ s.config.msgCap, cap < n

/-- The length after padding in the form R113 and R120 give it: the least multiple of `rate_bytes` above `n`. -/
def leastMultipleAbove (d : DigestSize) (n : Nat) : Nat := rateBytes d * (n / rateBytes d + 1)

/-- The operand values R130 calls illegal, with the code of each (priority class 4 of R141). -/
def operandFault (s : State) : Instr → Option (BitVec 4)
  | .init size => if size.toNat ∈ [224, 256, 384, 512] then none else some 3
  | .hash size => if size.toNat ∈ [224, 256, 384, 512] then none else some 3
  | .iota rnd => if 24 ≤ rnd.toNat then some 4 else none
  | .round rnd => if 24 ≤ rnd.toNat then some 4 else none
  | .absorb idx _ => (sizeOf? s).bind fun d => if rate d / 64 ≤ idx.toNat then some 5 else none
  | .squeeze len => if len.toNat / 8 = 0 then some 6 else none
  | _ => none

/-- The buffer bounds of R130, with the code of each (priority class 5 of R141). -/
def bufferFault (s : State) : Instr → Option (BitVec 4)
  | .absblk => (sizeOf? s).bind fun d => if s.mlen < (s.blk + 1) * rateBytes d then some 7 else none
  | .push _ => if exceedsCap s (s.mlen + 1) then some 8 else none
  | .pad => (sizeOf? s).bind fun d => if exceedsCap s (leastMultipleAbove d s.mlen) then some 8 else none
  | .hash size => (legalSize? size).bind fun d => if exceedsCap s (leastMultipleAbove d s.mlen) then some 8 else none
  | _ => none

/-- The code of the fault a decoded command raises while `ERR = 0`, by the table of R130 in the order of R141. -/
def tabledFault (i : Instr) (s : State) : Option (BitVec 4) :=
  if readsConfig i = true ∧ s.cfg = false then some 2
  else (operandFault s i).or (bufferFault s i)

/-- The masks and matches of the 14 rows of R58, as the spec's table lists them. -/
def specRows : List (CmdWord × CmdWord) :=
  [ (0xFFFFFFFF, 0x01000000), (0xFFFFFFFF, 0x02000000), (0xFFFFFFFF, 0x03000000), (0xFFFFFFE0, 0x04000000),
    (0xFFFFFFE0, 0x05000000), (0xFFFFFFFF, 0x06000000), (0xFFFF0000, 0x10000000), (0xFFFFFFE0, 0x11000000),
    (0xFFFFFFFF, 0x12000000), (0xFFFF0000, 0x13000000), (0xFFFFFFFF, 0x20000000), (0xFFFFFF00, 0x21000000),
    (0xFFFFFFFF, 0x22000000), (0xFFFF0000, 0x30000000) ]

/-- The 8-bit register of R71 after `t` steps: shift left into 9 bits, XOR `0x171` when bit 8 is 1, keep 8 bits. -/
def shiftRegister : Nat → Nat
  | 0 => 1
  | t + 1 =>
    let shifted := 2 * shiftRegister t
    (if shifted.testBit 8 then shifted ^^^ 0x171 else shifted) % 256

/-- `rc(t)` of R71. -/
def rcBit (t : Nat) : Bool := (shiftRegister (t % 255)).testBit 0

/-- Column and row of the walk of R72 after `t` moves from `(1, 0)`. -/
def offsetWalk : Nat → Fin 5 × Fin 5
  | 0 => (1, 0)
  | t + 1 => ((offsetWalk t).2, 2 * (offsetWalk t).1 + 3 * (offsetWalk t).2)

/-- What a command that succeeds may write (R25), the stored bytes of `MSG` by address. -/
def writesOnly (i : Instr) (s t : State) : Prop :=
  match i with
  | .theta => t = s.setLanes t.lanes
  | .rhopi => t = s.setLanes t.lanes
  | .chi => t = s.setLanes t.lanes
  | .iota _ => t = s.setLanes t.lanes ∧ ∀ r c, ¬ (r = 0 ∧ c = 0) → laneAt t.lanes r c = laneAt s.lanes r c
  | .round _ => t = s.setLanes t.lanes
  | .permute => t = s.setLanes t.lanes
  | .init _ => t = (((s.setLanes t.lanes).setSize t.size).setBlk t.blk).setOut t.out t.olen
  | .absorb idx _ =>
    t = s.setLanes t.lanes ∧ ∀ r c, flatIndex r c ≠ idx.toNat → laneAt t.lanes r c = laneAt s.lanes r c
  | .absblk => t = (s.setLanes t.lanes).setBlk t.blk
  | .squeeze _ => t = (s.setLanes t.lanes).setOut t.out t.olen
  | .mclr => t = (s.setMsg t.msg t.mlen).setBlk t.blk
  | .push _ => t = s.setMsg t.msg t.mlen ∧ ∀ k, k ≠ s.mlen → t.msg.read k = s.msg.read k
  | .pad => t = s.setMsg t.msg t.mlen ∧ ∀ k, ¬ (s.mlen ≤ k ∧ k < t.mlen) → t.msg.read k = s.msg.read k
  | .hash _ =>
    t = ((((s.setLanes t.lanes).setSize t.size).setMsg t.msg t.mlen).setBlk t.blk).setOut t.out t.olen ∧
      ∀ k, ¬ (s.mlen ≤ k ∧ k < t.mlen) → t.msg.read k = s.msg.read k

/-- How many bytes of `MSG`, from address `MLEN` on, a command that does not empty `MSG` stores (R39). -/
def storedCount (i : Instr) (s : State) : Nat :=
  match i with
  | .push _ => 1
  | .pad => ((sizeOf? s).map fun d => padCount d s.mlen).getD 0
  | .hash size => ((legalSize? size).map fun d => padCount d s.mlen).getD 0
  | _ => 0

/-- The first `n` words of a byte sequence (R34). -/
def wordsOf : Nat → List Byte → List Lane
  | 0, _ => []
  | n + 1, bs => le64 (bs.take 8) :: wordsOf n (bs.drop 8)

/-- `n` blocks of a byte sequence absorbed, each followed by the permutation (R92). -/
def absorbBytes (d : DigestSize) : Nat → LaneArray → List Byte → LaneArray
  | 0, a, _ => a
  | n + 1, a, bs => absorbBytes d n (permuteLanes (xorWords a (wordsOf (rateLanes d) bs))) (bs.drop (rateBytes d))

/-- The SHA3 digest of a message, over byte sequences alone: pad, absorb from the zero state, read out the first bytes
of the rate lanes (R1, R113, R120, R123). -/
def sha3 (d : DigestSize) (message : List Byte) : List Byte :=
  let padded := message ++ padBytes (padCount d message.length)
  (laneBytes (absorbBytes d (padded.length / rateBytes d) zeroLanes padded) (rateLanes d)).take (digestBytes d)

end Sys2Proof.Machine
end

