-- ==== Sys2Proof/Certificates/Slice0/Obligations.lean ====
section
/-! DEFINITION. The statements for the provers, from the numbered rules of spec/. -/

open Sys2Proof Sys2Proof.Machine

/-! Encoding (30_encoding.md) -/

/-- R51 to R59: decoding the word of a command, with its `DIN` beside it, gives the command back, for every operand value. -/
def Obligations.DecodeOfEncodeIsTheCommand : Prop :=
  ∀ i : Instr, decode (encode i) (dinOf i) = .ok i

/-- R59, R61: what a word decodes to encodes to that word, and `ABSORB` alone carries the `DIN` it was given. -/
def Obligations.EncodeOfDecodeIsTheWord : Prop :=
  ∀ (w : CmdWord) (din : Lane) (i : Instr), decode w din = .ok i →
    encode i = w ∧ dinOf i = (if opField w = 0x11 then din else 0)

/-- R62: the fifteen words of the table of examples decode to the commands beside them. -/
def Obligations.ExampleWordsDecodeAsListed : Prop :=
  (∀ din, decode 0x01000000 din = .ok .theta) ∧
  (∀ din, decode 0x04000003 din = .ok (.iota 3)) ∧
  (∀ din, decode 0x05000017 din = .ok (.round 23)) ∧
  (∀ din, decode 0x06000000 din = .ok .permute) ∧
  (∀ din, decode 0x10000100 din = .ok (.init 256)) ∧
  (∀ din, decode 0x100000E0 din = .ok (.init 224)) ∧
  (∀ din, decode 0x10000180 din = .ok (.init 384)) ∧
  (∀ din, decode 0x10000200 din = .ok (.init 512)) ∧
  decode 0x11000010 0x8000000000000000 = .ok (.absorb 16 0x8000000000000000) ∧
  (∀ din, decode 0x12000000 din = .ok .absblk) ∧
  (∀ din, decode 0x13000100 din = .ok (.squeeze 256)) ∧
  (∀ din, decode 0x20000000 din = .ok .mclr) ∧
  (∀ din, decode 0x21000061 din = .ok (.push 0x61)) ∧
  (∀ din, decode 0x22000000 din = .ok .pad) ∧
  (∀ din, decode 0x30000200 din = .ok (.hash 512))

/-- R60, R131: a word that matches no row of R58 is illegal, exactly those words are, and issuing one while `ERR = 0` records
IllegalCommand and the word. -/
def Obligations.WordsMatchingNoRowRaiseIllegalCommand : Prop :=
  (∀ (w : CmdWord) (din : Lane), (∃ e, decode w din = .error e) ↔ ∀ row ∈ specRows, w &&& row.1 ≠ row.2) ∧
  (∀ row ∈ specRows, (0x00000000 : CmdWord) &&& row.1 ≠ row.2) ∧
  (∀ row ∈ specRows, (0xFFFFFFFF : CmdWord) &&& row.1 ≠ row.2) ∧
  ∀ (s : State) (w : CmdWord) (din : Lane) (rest : List HostAction),
    s.err = 0 → s.input = .command w din :: rest → (∀ row ∈ specRows, w &&& row.1 ≠ row.2) →
    step s = .next ((s.setInput rest).setErr 1 w)

/-- R58, R59: the decoder's rows have the masks and matches of the spec's table; a word that matches a row under its mask decodes to the
command of that row; and at most one row of the decoder matches a word. -/
def Obligations.AtMostOneRowMatchesAWord : Prop :=
  opcodeMap.map (fun row => (row.mask, row.pattern)) = specRows ∧
  (∀ (w : CmdWord) (din : Lane), ∀ row ∈ opcodeMap, w &&& row.mask = row.pattern → decode w din = .ok (row.make w din)) ∧
  ∀ (w : CmdWord), ∀ row ∈ opcodeMap, ∀ row' ∈ opcodeMap,
    w &&& row.mask = row.pattern → w &&& row'.mask = row'.pattern → row = row'

/-- R61: for a word whose opcode is not that of `ABSORB`, `DIN` has no effect on any state. -/
def Obligations.OnlyAbsorbReadsDin : Prop :=
  ∀ (s : State) (w : CmdWord) (din din' : Lane), opField w ≠ 0x11 → runCommand w din s = runCommand w din' s

/-! The step and the host's port (00_scope.md R6, 70_reset_and_hazards.md R166) -/

/-- R6, R59, R166: a step whose next host action is a command word that decodes runs exactly that command, in the state whose
input is what the host issues after it; nothing else happens around it. -/
def Obligations.StepRunsTheDecodedCommand : Prop :=
  ∀ (s : State) (w : CmdWord) (din : Lane) (rest : List HostAction) (i : Instr),
    s.err = 0 → s.input = .command w din :: rest → decode w din = .ok i → step s = exec i (s.setInput rest)

/-- Log entry 1 (the model's choice): a core that the host asks nothing stays as it is. -/
def Obligations.IdleCoreStaysAsItIs : Prop :=
  ∀ s : State, s.input = [] → step s = .next s

/-- R140: while `ERR != 0` every word is ignored, even `ERRCMD` stays, host reads are answered (of SR1 when `CFG = 1`, of `OUT` below
`OLEN`), and reset leads out. -/
def Obligations.HaltedCoreIgnoresEveryWord : Prop :=
  ∀ (s : State) (rest : List HostAction), s.err ≠ 0 →
    (∀ i, exec i s = .next s) ∧
    (∀ w din, s.input = .command w din :: rest → step s = .next (s.setInput rest)) ∧
    (∀ r, s.input = .readStatus r :: rest → (r = .size → s.cfg = true) →
      ∃ v, statusValue s r = some v ∧ step s = .next ((s.setInput rest).addReply (.status r v))) ∧
    (∀ k b, s.input = .readOut k :: rest → k < s.olen.toNat → s.out.read k = some b →
      step s = .next ((s.setInput rest).addReply (.output k b))) ∧
    (s.input = .reset :: rest → ∃ t, step s = .next t ∧ t.err = 0 ∧ t.errcmd = 0)

/-- R16, R160: once a fault is recorded, a step that changes `ERR` or `ERRCMD` is a reset. -/
def Obligations.OnlyResetClearsErr : Prop :=
  ∀ s t : State, s.err ≠ 0 → step s = .next t → t.err ≠ s.err ∨ t.errcmd ≠ s.errcmd → ∃ rest, s.input = .reset :: rest

/-- R139: a step of a command that leaves a fault recorded where none was has written a code of R130 to `ERR`, the command word to
`ERRCMD`, and nothing else of the core. -/
def Obligations.FaultWritesErrAndErrcmdOnly : Prop :=
  ∀ (s t : State) (w : CmdWord) (din : Lane) (rest : List HostAction),
    s.err = 0 → s.input = .command w din :: rest → step s = .next t → t.err ≠ 0 →
    ∃ f : FaultCode, t = (s.setInput rest).setErr (faultCode f) w

/-- R130, R141: which fault a command word raises, in every state that meets the invariant: ignored first, then IllegalCommand,
then the code of the table; where the table gives none the command completes and no fault is recorded. -/
def Obligations.CommandsFaultExactlyAsTabled : Prop :=
  ∀ (s : State) (w : CmdWord) (din : Lane) (rest : List HostAction), s.inv → s.input = .command w din :: rest →
    (s.err ≠ 0 → step s = .next (s.setInput rest)) ∧
    (s.err = 0 →
      (∀ e, decode w din = .error e → step s = .next ((s.setInput rest).setErr 1 w)) ∧
      ∀ i, decode w din = .ok i →
        (∀ code, tabledFault i s = some code → step s = .next ((s.setInput rest).setErr code w)) ∧
        (tabledFault i s = none → ∃ t, step s = .next t ∧ t.err = 0 ∧ t.errcmd = s.errcmd))

/-- R132: NotConfigured is raised by the ten commands that read `A` or `SIZE` when `CFG = 0`, and never by the other four. -/
def Obligations.NotConfiguredIsRaisedByTheTenReaders : Prop :=
  ∀ (i : Instr) (s : State), s.err = 0 →
    (readsConfig i = true → s.cfg = false → exec i s = .next (s.setErr 2 (encode i))) ∧
    (readsConfig i = false → ∀ t, exec i s = .next t → t.err ≠ 2)

/-- R14: a step that clears `CFG` is a reset, and one that sets it is an `INIT` or a `HASH` of a legal size, which `SIZE` then holds. -/
def Obligations.CfgIsSetByInitOrHashAndClearedByReset : Prop :=
  ∀ s t : State, step s = .next t →
    (s.cfg = true → t.cfg = false → ∃ rest, s.input = .reset :: rest) ∧
    (s.cfg = false → t.cfg = true → ∃ w din rest size, s.input = .command w din :: rest ∧
      (decode w din = .ok (.init size) ∨ decode w din = .ok (.hash size)) ∧
      size.toNat ∈ [224, 256, 384, 512] ∧ t.size = size)

/-- R20: a status read answers the register's value and changes nothing of the core; SR0 holds `CFG` in bit 0 and `ERR` in bits 4:1;
a read of SR1 while `CFG = 0` is refused: it gets no value and changes nothing of the core (R20, R161, U4; that the refusal is a reply, after
which the machine goes on, is the model's choice, log entry 12). -/
def Obligations.StatusReadsAnswerAndChangeNothing : Prop :=
  ∀ (s : State) (rest : List HostAction),
    (s.input = .readStatus .status :: rest →
      step s = .next ((s.setInput rest).addReply (.status .status ((if s.cfg then 1 else 0) + 2 * s.err.toNat)))) ∧
    (s.input = .readStatus .size :: rest → s.cfg = true →
      step s = .next ((s.setInput rest).addReply (.status .size s.size.toNat))) ∧
    (s.input = .readStatus .size :: rest → s.cfg = false →
      step s = .next ((s.setInput rest).addReply (.statusRefused .size))) ∧
    (s.input = .readStatus .mlen :: rest → step s = .next ((s.setInput rest).addReply (.status .mlen s.mlen))) ∧
    (s.input = .readStatus .blk :: rest → step s = .next ((s.setInput rest).addReply (.status .blk s.blk))) ∧
    (s.input = .readStatus .olen :: rest → step s = .next ((s.setInput rest).addReply (.status .olen s.olen.toNat))) ∧
    (s.input = .readStatus .errcmd :: rest → step s = .next ((s.setInput rest).addReply (.status .errcmd s.errcmd.toNat)))

/-- R33: the host may read any byte of `OUT` below `OLEN`, with no side effect; a read at or beyond `OLEN` is refused. -/
def Obligations.OutputReadsAnswerBelowOlenOnly : Prop :=
  ∀ (s : State) (k : Nat) (rest : List HostAction), s.outputInv → s.input = .readOut k :: rest →
    (k < s.olen.toNat → ∃ b, s.out.bytes[k]? = some b ∧ step s = .next ((s.setInput rest).addReply (.output k b))) ∧
    (s.olen.toNat ≤ k → step s = .refused .outputPastEnd)

/-- R24, R160: what reset leaves, but for the lanes and `SIZE`, to which the spec gives no value (the model's free values, log entry 3);
the parameter and the host's own side stay (the model's choice, log entries 1, 2 and 4). -/
def Obligations.ResetClearsFlagsBuffersAndCounters : Prop :=
  ∀ (s : State) (rest : List HostAction), s.input = .reset :: rest →
    ∃ t, step s = .next t ∧ t.cfg = false ∧ t.err = 0 ∧ t.errcmd = 0 ∧ t.msg = [] ∧ t.mlen = 0 ∧ t.blk = 0 ∧
      t.out = [] ∧ t.olen = 0 ∧ t.config = s.config ∧ t.input = rest ∧ t.replies = s.replies

/-- R161: while `CFG = 0` no command's effect depends on what the lanes and `SIZE` hold: with other contents the same command
answers the same state, but for those contents where they are still unwritten; and no status read depends on them, since that of SR1 is
refused (that the refusal is a reply is the model's choice, log entry 12). -/
def Obligations.UnspecifiedLanesAndSizeAreNeverSeen : Prop :=
  (∀ (i : Instr) (s t : State) (a : LaneArray) (n : BitVec 16), s.cfg = false → exec i s = .next t →
    exec i { s with lanes := a, size := n } = .next (if t.cfg then t else { t with lanes := a, size := n })) ∧
  ∀ (s : State) (a : LaneArray) (n : BitVec 16) (r : StatusReg), s.cfg = false →
    statusReply { s with lanes := a, size := n } r = statusReply s r ∧ statusReply s .size = .statusRefused .size

/-! Parameters and byte order (00_scope.md R5, R7; 20_memory.md R34, R35) -/

/-- R5: the table of derived sizes. -/
def Obligations.DerivedSizesAreTheTable : Prop :=
  [DigestSize.s224, .s256, .s384, .s512].map
      (fun d => (sizeBits d, rate d, rateBytes d, rateLanes d, capacityBits d, digestBytes d)) =
    [(224, 1152, 144, 18, 448, 28), (256, 1088, 136, 17, 512, 32), (384, 832, 104, 13, 768, 48), (512, 576, 72, 9, 1024, 64)]

/-- R7: `rotl64` moves bit `i` to bit `(i + n) mod 64`. -/
def Obligations.RotationMovesEveryBit : Prop :=
  ∀ (v : Lane) (n i : Nat), n ≤ 63 → i ≤ 63 → (rotl64 v n).getLsbD ((i + n) % 64) = v.getLsbD i

/-- R34: the byte at address `a + j` supplies bits `8j + 7` down to `8j` of the word read at `a`. -/
def Obligations.MessageWordsAreLittleEndian : Prop :=
  ∀ (m : Memory) (a : Nat) (v : Lane), m.readWord a = some v → ∀ j, j < 8 → m.read (a + j) = some (v.extractLsb' (8 * j) 8)

/-- R7, R35: `bytes_le64` and `le64` are inverse to each other, and byte `j` of a lane is its bits `8j + 7` down to `8j`. -/
def Obligations.LaneBytesAndLe64AreInverse : Prop :=
  (∀ v : Lane, le64 (bytesLe64 v) = v) ∧
  (∀ bs : List Byte, bs.length = 8 → bytesLe64 (le64 bs) = bs) ∧
  ∀ (v : Lane) (j : Nat), j < 8 → (bytesLe64 v)[j]? = some (v.extractLsb' (8 * j) 8)

/-! The permutation engine (40_permutation.md) -/

/-- R71: only bits 0, 1, 3, 7, 15, 31, 63 of a round constant can be 1, and bit `2^j - 1` of `RC[r]` is `rc(j + 7r)`. -/
def Obligations.RoundConstantsFollowTheShiftRegister : Prop :=
  ∀ r, r < 24 → ∀ b, b < 64 →
    (roundConstant r).getLsbD b = (List.range 7).any fun j => decide (b = 2 ^ j - 1) && rcBit (j + 7 * r)

/-- R72: the offset of lane (0,0) is 0, and the walk from `(x, y) = (1, 0)` gives the other 24 offsets. -/
def Obligations.RotationOffsetsFollowTheWalk : Prop :=
  rotOffset 0 0 = 0 ∧ ∀ t, t < 24 → rotOffset (offsetWalk t).2 (offsetWalk t).1 = ((t + 1) * (t + 2) / 2) % 64

/-- R73: `THETA` XORs every lane with the correction of its own column, and changes nothing else. -/
def Obligations.ThetaCorrectsEveryLaneByItsColumn : Prop :=
  encode .theta = 0x01000000 ∧
  ∀ s : State, s.err = 0 →
    (s.cfg = false → exec .theta s = .next (s.setErr 2 0x01000000)) ∧
    (s.cfg = true → ∃ (a : LaneArray) (C D : Fin 5 → Lane), exec .theta s = .next (s.setLanes a) ∧
      (∀ c, C c = laneAt s.lanes 0 c ^^^ laneAt s.lanes 1 c ^^^ laneAt s.lanes 2 c ^^^ laneAt s.lanes 3 c ^^^ laneAt s.lanes 4 c) ∧
      (∀ c, D c = C (c + 4) ^^^ rotl64 (C (c + 1)) 1) ∧
      ∀ r c, laneAt a r c = laneAt s.lanes r c ^^^ D c)

/-- R74: `RHOPI` rotates the lane at row `r`, column `c` left by its offset and writes it to row `(2c + 3r) mod 5`, column `r`; every lane
of the result is one of these, and nothing else changes. -/
def Obligations.RhopiRotatesAndMovesEveryLane : Prop :=
  encode .rhopi = 0x02000000 ∧
  (∀ r' c' : Fin 5, ∃ r c : Fin 5, r' = 2 * c + 3 * r ∧ c' = r) ∧
  ∀ s : State, s.err = 0 →
    (s.cfg = false → exec .rhopi s = .next (s.setErr 2 0x02000000)) ∧
    (s.cfg = true → ∃ a : LaneArray, exec .rhopi s = .next (s.setLanes a) ∧
      ∀ r c : Fin 5, laneAt a (2 * c + 3 * r) r = rotl64 (laneAt s.lanes r c) (rotOffset r c))

/-- R75: `CHI` recomputes every lane from the old lanes of its own row, and changes nothing else. -/
def Obligations.ChiRecomputesEveryRow : Prop :=
  encode .chi = 0x03000000 ∧
  ∀ s : State, s.err = 0 →
    (s.cfg = false → exec .chi s = .next (s.setErr 2 0x03000000)) ∧
    (s.cfg = true → ∃ a : LaneArray, exec .chi s = .next (s.setLanes a) ∧
      ∀ r c : Fin 5, laneAt a r c = laneAt s.lanes r c ^^^ ((~~~ laneAt s.lanes r (c + 1)) &&& laneAt s.lanes r (c + 2)))

/-- R76: `IOTA rnd` XORs the round's constant into lane (0,0) alone; its faults are NotConfigured, then IllegalRound. -/
def Obligations.IotaXorsTheConstantIntoLaneZero : Prop :=
  ∀ rnd : BitVec 5, encode (.iota rnd) = 0x04000000 + rnd.setWidth 32 ∧
  ∀ s : State, s.err = 0 →
    (s.cfg = false → exec (.iota rnd) s = .next (s.setErr 2 (encode (.iota rnd)))) ∧
    (s.cfg = true → 24 ≤ rnd.toNat → exec (.iota rnd) s = .next (s.setErr 4 (encode (.iota rnd)))) ∧
    (s.cfg = true → rnd.toNat < 24 → ∃ a : LaneArray, exec (.iota rnd) s = .next (s.setLanes a) ∧
      laneAt a 0 0 = laneAt s.lanes 0 0 ^^^ roundConstant rnd.toNat ∧
      ∀ r c : Fin 5, ¬ (r = 0 ∧ c = 0) → laneAt a r c = laneAt s.lanes r c)

/-- R76 (derived there): `IOTA rnd` applied twice restores the state. -/
def Obligations.IotaTwiceRestoresTheState : Prop :=
  ∀ (rnd : BitVec 5) (s : State), s.err = 0 → s.cfg = true → rnd.toNat < 24 → execAll [.iota rnd, .iota rnd] s = .next s

/-- R77 (derived there, from R73 to R76 and R6): `ROUND rnd` runs theta, rho-and-pi, chi and iota in this order; its faults are NotConfigured, then IllegalRound. -/
def Obligations.RoundIsItsFourSteps : Prop :=
  ∀ rnd : BitVec 5, encode (.round rnd) = 0x05000000 + rnd.setWidth 32 ∧
  ∀ s : State, s.err = 0 →
    (s.cfg = false → exec (.round rnd) s = .next (s.setErr 2 (encode (.round rnd)))) ∧
    (s.cfg = true → 24 ≤ rnd.toNat → exec (.round rnd) s = .next (s.setErr 4 (encode (.round rnd)))) ∧
    (s.cfg = true → rnd.toNat < 24 → ∃ a : LaneArray, exec (.round rnd) s = .next (s.setLanes a) ∧
      execAll [.theta, .rhopi, .chi, .iota rnd] s = .next (s.setLanes a))

/-- R78: `PERMUTE` is rounds 0 to 23 in order, and changes nothing but the lanes. -/
def Obligations.PermuteIsTwentyFourRounds : Prop :=
  encode .permute = 0x06000000 ∧
  ∀ s : State, s.err = 0 →
    (s.cfg = false → exec .permute s = .next (s.setErr 2 0x06000000)) ∧
    (s.cfg = true → ∃ a : Nat → LaneArray, a 0 = s.lanes ∧ exec .permute s = .next (s.setLanes (a 24)) ∧
      ∀ k, k < 24 → exec (.round (BitVec.ofNat 5 k)) (s.setLanes (a k)) = .next (s.setLanes (a (k + 1))))

/-! The sponge engine (41_sponge.md) -/

/-- R90: `INIT size` zeroes the lanes, writes `SIZE`, sets `CFG`, zeroes `BLK` and empties `OUT`; `MSG` is not touched. -/
def Obligations.InitZeroesTheLanesAndSelectsTheSize : Prop :=
  (∀ r c : Fin 5, laneAt zeroLanes r c = 0) ∧
  ∀ size : BitVec 16, encode (.init size) = 0x10000000 + size.setWidth 32 ∧
  ∀ s : State, s.err = 0 →
    (size.toNat ∈ [224, 256, 384, 512] →
      exec (.init size) s = .next { s with lanes := zeroLanes, size := size, cfg := true, blk := 0, out := [], olen := 0 }) ∧
    (size.toNat ∉ [224, 256, 384, 512] → exec (.init size) s = .next (s.setErr 3 (encode (.init size))))

/-- R91: `ABSORB idx` XORs `DIN` into lane `idx` and leaves every other lane; its faults are NotConfigured, then IllegalLaneIndex. -/
def Obligations.AbsorbXorsOneRateLane : Prop :=
  ∀ (idx : BitVec 5) (din : Lane), encode (.absorb idx din) = 0x11000000 + idx.setWidth 32 ∧
  ∀ (s : State) (d : DigestSize), s.err = 0 → s.size = sizeWord d →
    (s.cfg = false → exec (.absorb idx din) s = .next (s.setErr 2 (encode (.absorb idx din)))) ∧
    (s.cfg = true → rate d / 64 ≤ idx.toNat → exec (.absorb idx din) s = .next (s.setErr 5 (encode (.absorb idx din)))) ∧
    (s.cfg = true → idx.toNat < rate d / 64 → ∃ a : LaneArray, exec (.absorb idx din) s = .next (s.setLanes a) ∧
      ∀ r c : Fin 5, laneAt a r c =
        if r.val = idx.toNat / 5 ∧ c.val = idx.toNat % 5 then laneAt s.lanes r c ^^^ din else laneAt s.lanes r c)

/-- R92: `ABSBLK` XORs the words of the block at `BLK`, read little-endian from `MSG`, into the first rate lanes, permutes, and
advances `BLK`; its faults are NotConfigured, then BufferUnderrun. -/
def Obligations.AbsblkAbsorbsTheBlockAtBlk : Prop :=
  encode .absblk = 0x12000000 ∧
  ∀ (s : State) (d : DigestSize), s.err = 0 → s.size = sizeWord d → s.messageInv →
    (s.cfg = false → exec .absblk s = .next (s.setErr 2 0x12000000)) ∧
    (s.cfg = true → s.mlen < (s.blk + 1) * rateBytes d → exec .absblk s = .next (s.setErr 7 0x12000000)) ∧
    (s.cfg = true → (s.blk + 1) * rateBytes d ≤ s.mlen → ∃ (w : Nat → Lane) (a : LaneArray),
      (∀ j, j < rateLanes d → s.msg.readWord (s.blk * rateBytes d + 8 * j) = some (w j)) ∧
      (∀ r c : Fin 5, laneAt a r c =
        if flatIndex r c < rateLanes d then laneAt s.lanes r c ^^^ w (flatIndex r c) else laneAt s.lanes r c) ∧
      exec .absblk s = .next ((s.setLanes (permuteLanes a)).setBlk (s.blk + 1)))

/-- R92 (derived there): `ABSBLK` leaves the state that `ABSORB 0, w0` to `ABSORB rate_lanes - 1`, `PERMUTE` leave, with `BLK` advanced. -/
def Obligations.AbsblkEqualsAbsorbsThenPermute : Prop :=
  ∀ (s : State) (d : DigestSize) (w : Nat → Lane), s.err = 0 → s.cfg = true → s.size = sizeWord d →
    (s.blk + 1) * rateBytes d ≤ s.mlen →
    (∀ j, j < rateLanes d → s.msg.readWord (s.blk * rateBytes d + 8 * j) = some (w j)) →
    ∃ u, execAll ((List.range (rateLanes d)).map (fun j => Instr.absorb (BitVec.ofNat 5 j) (w j)) ++ [.permute]) s = .next u ∧
      exec .absblk s = .next (u.setBlk (s.blk + 1))

/-- R93: `SQUEEZE len` leaves in `OUT` exactly `len div 8` bytes: byte `k` comes from the lanes after `k div rate_bytes` permutations,
from lane `(k mod rate_bytes) div 8`, little-endian; the lanes are permuted once for every extraction, including the last. -/
def Obligations.SqueezeExtractsAndPermutes : Prop :=
  ∀ len : BitVec 16, encode (.squeeze len) = 0x13000000 + len.setWidth 32 ∧
  ∀ (s : State) (d : DigestSize), s.err = 0 → s.size = sizeWord d →
    (s.cfg = false → exec (.squeeze len) s = .next (s.setErr 2 (encode (.squeeze len)))) ∧
    (s.cfg = true → len.toNat < 8 → exec (.squeeze len) s = .next (s.setErr 6 (encode (.squeeze len)))) ∧
    (s.cfg = true → 8 ≤ len.toNat → ∃ (m : Memory) (n : BitVec 13), n.toNat = len.toNat / 8 ∧
      exec (.squeeze len) s =
        .next ((s.setLanes (permuteLanes^[(len.toNat / 8 + rateBytes d - 1) / rateBytes d] s.lanes)).setOut m n) ∧
      ∀ k, m.read k =
        if k < len.toNat / 8 then
          some ((flatLane (permuteLanes^[k / rateBytes d] s.lanes) (k % rateBytes d / 8)).extractLsb' (8 * (k % 8)) 8)
        else none)

/-- R95: a squeeze of at most one block gives the same output whatever the capacity lanes hold: they are never read out. -/
def Obligations.CapacityLanesAreNeverReadOut : Prop :=
  ∀ (s t t' : State) (d : DigestSize) (len : BitVec 16) (a : LaneArray),
    s.err = 0 → s.cfg = true → s.size = sizeWord d → len.toNat / 8 ≤ rateBytes d →
    (∀ i, i < rateLanes d → flatLane a i = flatLane s.lanes i) →
    exec (.squeeze len) s = .next t → exec (.squeeze len) (s.setLanes a) = .next t' → t'.out = t.out ∧ t'.olen = t.olen

/-! The padding engine and the message buffer (42_padding.md) -/

/-- R110: `MCLR` empties `MSG`, zeroes `MLEN` and `BLK`, and touches nothing else; it never faults. -/
def Obligations.MclrEmptiesTheMessage : Prop :=
  encode .mclr = 0x20000000 ∧
  ∀ s : State, s.err = 0 → exec .mclr s = .next { s with msg := [], mlen := 0, blk := 0 }

/-- R111: `PUSH byte` appends the byte at address `MLEN`, leaves every other address of `MSG`, and advances `MLEN`; it raises
BufferOverflow when `MLEN + 1 > MSG_CAP`. -/
def Obligations.PushAppendsOneByte : Prop :=
  ∀ byte : Byte, encode (.push byte) = 0x21000000 + byte.setWidth 32 ∧
  ∀ s : State, s.err = 0 →
    (exceedsCap s (s.mlen + 1) → exec (.push byte) s = .next (s.setErr 8 (encode (.push byte)))) ∧
    (¬ exceedsCap s (s.mlen + 1) → ∃ m : Memory, exec (.push byte) s = .next (s.setMsg m (s.mlen + 1)) ∧
      ∀ k, m.read k = if k = s.mlen then some byte else s.msg.read k)

/-- R112: `PAD` appends `q = rate_bytes - (MLEN mod rate_bytes)` bytes: 0x86 alone, or 0x06, zeros and 0x80; every other address of
`MSG` is left; its faults are NotConfigured, then BufferOverflow. -/
def Obligations.PadAppendsTheDomainZerosAndFinalByte : Prop :=
  encode .pad = 0x22000000 ∧
  ∀ (s : State) (d : DigestSize) (q : Nat), s.err = 0 → s.size = sizeWord d → q = rateBytes d - s.mlen % rateBytes d →
    (s.cfg = false → exec .pad s = .next (s.setErr 2 0x22000000)) ∧
    (s.cfg = true → exceedsCap s (s.mlen + q) → exec .pad s = .next (s.setErr 8 0x22000000)) ∧
    (s.cfg = true → ¬ exceedsCap s (s.mlen + q) → ∃ m : Memory, exec .pad s = .next (s.setMsg m (s.mlen + q)) ∧
      ∀ k, m.read k =
        if k < s.mlen ∨ s.mlen + q ≤ k then s.msg.read k
        else if s.mlen % rateBytes d = rateBytes d - 1 then some 0x86
        else if k = s.mlen then some 0x06
        else if k = s.mlen + q - 1 then some 0x80
        else some 0x00)

/-- R113 (derived there): the length after padding is the least multiple of `rate_bytes` that is greater than the length before, so a
positive one. -/
def Obligations.PaddedLengthIsTheLeastMultipleAbove : Prop :=
  ∀ (s t : State) (d : DigestSize), s.err = 0 → s.cfg = true → s.size = sizeWord d → exec .pad s = .next t → t.err = 0 →
    rateBytes d ∣ t.mlen ∧ s.mlen < t.mlen ∧ ∀ n, rateBytes d ∣ n → s.mlen < n → t.mlen ≤ n

/-! The top-level routine (43_hash.md) -/

/-- R121 (derived there): `HASH size` leaves exactly the state that `INIT size`, `PAD`, an `ABSBLK` for every block and `SQUEEZE size` leave. -/
def Obligations.HashIsInitPadAbsorbSqueeze : Prop :=
  ∀ (s : State) (d : DigestSize), s.err = 0 → s.messageInv → ¬ exceedsCap s (leastMultipleAbove d s.mlen) →
    ∃ t, exec (.hash (sizeWord d)) s = .next t ∧
      execAll (.init (sizeWord d) :: .pad ::
        (List.replicate (s.mlen / rateBytes d + 1) .absblk ++ [.squeeze (sizeWord d)])) s = .next t

/-- R120, R1: `HASH size` completes on every message that fits, and leaves in `OUT` the SHA3 digest of the message bytes, in `MSG` the
padded message, and in the registers what R120 lists. -/
def Obligations.HashLeavesTheSha3Digest : Prop :=
  ∀ (s : State) (d : DigestSize), s.err = 0 → s.messageInv → ¬ exceedsCap s (leastMultipleAbove d s.mlen) →
    ∃ t, exec (.hash (sizeWord d)) s = .next t ∧
      t.out.bytes = sha3 d s.msg.bytes ∧ t.outputInv ∧ t.olen.toNat = sizeBits d / 8 ∧
      t.msg.bytes = s.msg.bytes ++ padBytes (padCount d s.mlen) ∧ t.messageInv ∧
      t.mlen = rateBytes d * (s.mlen / rateBytes d + 1) ∧ t.blk = s.mlen / rateBytes d + 1 ∧
      t.size = sizeWord d ∧ t.cfg = true ∧
      t = ((((s.setLanes t.lanes).setSize t.size).setMsg t.msg t.mlen).setBlk t.blk).setOut t.out t.olen

/-- R123: what a successful `HASH` leaves depends on the message, `MLEN` and the size alone, not on any earlier lanes, size,
configuration, block count or output. -/
def Obligations.HashDependsOnTheMessageAlone : Prop :=
  ∀ (s u s' u' : State) (size : BitVec 16), s.err = 0 → u.err = 0 → s.msg = u.msg → s.mlen = u.mlen →
    exec (.hash size) s = .next s' → exec (.hash size) u = .next u' → s'.err = 0 → u'.err = 0 →
    s'.out = u'.out ∧ s'.olen = u'.olen ∧ s'.lanes = u'.lanes ∧ s'.size = u'.size ∧ s'.cfg = u'.cfg ∧
      s'.blk = u'.blk ∧ s'.msg = u'.msg ∧ s'.mlen = u'.mlen

/-- R120, R133, R138: `HASH` of a size that is not legal faults with IllegalSize, of a message whose padded length passes the capacity
with BufferOverflow, and in every other case completes with no fault; so it never faults on a legal size when the buffer is unbounded or
the message empty (R4), where the padded length always fits. -/
def Obligations.HashFaultsOnlyOnSizeOrOverflow : Prop :=
  ∀ (s : State) (size : BitVec 16), s.inv → s.err = 0 →
    (size.toNat ∉ [224, 256, 384, 512] → exec (.hash size) s = .next (s.setErr 3 (encode (.hash size)))) ∧
    (∀ d, size = sizeWord d → exceedsCap s (leastMultipleAbove d s.mlen) →
      exec (.hash size) s = .next (s.setErr 8 (encode (.hash size)))) ∧
    (∀ d, size = sizeWord d → ¬ exceedsCap s (leastMultipleAbove d s.mlen) →
      ∃ t, exec (.hash size) s = .next t ∧ t.err = 0 ∧ t.errcmd = s.errcmd) ∧
    ((∃ d, size = sizeWord d) ↔ size.toNat ∈ [224, 256, 384, 512]) ∧
    ∀ d, s.config.msgCap = none ∨ s.mlen = 0 → ¬ exceedsCap s (leastMultipleAbove d s.mlen)

/-- R63, R123: the commands of `HASHB size, bytes`, issued in any state with `ERR = 0` whose buffer can hold the padded message, end
with the SHA3 digest of the bytes in `OUT`, whatever the core held before. -/
def Obligations.HashbComputesSha3FromAnyState : Prop :=
  ∀ (s : State) (d : DigestSize) (bs : List Byte), s.err = 0 → ¬ exceedsCap s (leastMultipleAbove d bs.length) →
    ∃ t, execAll (hashB (sizeWord d) bs) s = .next t ∧ t.err = 0 ∧ t.out.bytes = sha3 d bs ∧ t.olen.toNat = sizeBits d / 8

/-- R122: the rendering of a byte sequence has two lowercase hexadecimal digits per byte, the high half first. -/
def Obligations.HexHasTwoDigitsPerByte : Prop :=
  ∀ (bs : List Byte), (hex bs).toList.length = 2 * bs.length ∧
    ∀ (k : Nat) (b : Byte), bs[k]? = some b →
      (hex bs).toList[2 * k]? = hexDigits[b.toNat / 16]? ∧ (hex bs).toList[2 * k + 1]? = hexDigits[b.toNat % 16]?

/-! Whole-machine rules -/

/-- R25: a command that succeeds writes nothing outside its write set, and every byte of `MSG` outside the stored ones reads as before. -/
def Obligations.CommandsWriteOnlyTheirWriteSet : Prop :=
  ∀ (i : Instr) (s t : State), s.err = 0 → exec i s = .next t → t.err = 0 → writesOnly i s t

/-- R30, R31, R32: whatever a command does, a byte of `MSG` outside those it stores reads as before, unless the command is `MCLR`; and a
byte of `OUT` reads as before, unless the command is `INIT`, `SQUEEZE` or `HASH`. -/
def Obligations.BytesOutsideTheStoredOnesAreUnchanged : Prop :=
  ∀ (i : Instr) (s t : State), exec i s = .next t →
    (i ≠ .mclr → ∀ k, ¬ (s.mlen ≤ k ∧ k < s.mlen + storedCount i s) → t.msg.read k = s.msg.read k) ∧
    ((∀ n, i ≠ .init n ∧ i ≠ .squeeze n ∧ i ≠ .hash n) → ∀ k, t.out.read k = s.out.read k)

/-- R18: a byte of the message, once written, changes only by `MCLR` or reset. -/
def Obligations.MessageBytesStayUntilCleared : Prop :=
  ∀ (s t : State) (act : HostAction) (rest : List HostAction), s.input = act :: rest → step s = .next t → s.messageInv →
    act ≠ .reset → (∀ din, act ≠ .command (encode .mclr) din) →
    s.mlen ≤ t.mlen ∧ ∀ k, k < s.mlen → t.msg.read k = s.msg.read k

/-- R53, R54, R55: an operand value that is legal in no configuration always faults by value or as not configured, and a legal one
completes somewhere: in some state that meets the invariant the command succeeds. -/
def Obligations.IllegalOperandsFaultAndLegalOnesComplete : Prop :=
  (∀ (i : Instr) (s : State), i.wellFormed = false → s.inv → s.err = 0 → ∃ f, exec i s = .next (s.faulted f (encode i))) ∧
  ∀ i : Instr, i.wellFormed = true → ∃ s t : State, s.inv ∧ s.err = 0 ∧ exec i s = .next t ∧ t.err = 0

/-- The invariant of R23 (with R15, R17, R18, R19) holds right after reset; the capacity there is the model's choice (log entry 4). -/
def Obligations.ResetMeetsTheInvariant : Prop := State.reset.inv

/-- R23: every step, from every state that meets the invariant, leaves a state that meets it: the message fits and is whole, the output
is whole, `SIZE` is legal when `CFG = 1`, the absorbed blocks lie inside the message, and `ERR` is a code of R130. -/
def Obligations.EveryStepKeepsTheInvariant : Prop :=
  ∀ s t : State, s.inv → step s = .next t → t.inv

/-- R23, R33: in a state that meets the invariant no step stops, but for a host read of `OUT` at or beyond `OLEN`.
That a refused read of SR1 (R20, R161, U4) gets the refusal as its reply and stops nothing is the model's choice, log entry 12. -/
def Obligations.InvariantStatesStopOnlyAtRefusedReads : Prop :=
  ∀ s : State, s.inv →
    (∃ t, step s = .next t) ∨
    (step s = .refused .outputPastEnd ∧ ∃ k rest, s.input = .readOut k :: rest ∧ s.olen.toNat ≤ k)
end

