-- ==== Sys2Proof/Laws/Memory.lean ====
section
/-! SUPPORT. The laws of byte spaces: read after write, the canonical form, and the bytes of a sequence. -/

namespace Sys2Proof.Machine

@[simp] theorem Memory.read_nil (k : Nat) : Memory.read [] k = none := rfl

@[simp] theorem Memory.read_write_same (m : Memory) (k : Nat) (v : Byte) : (m.write k v).read k = some v := by
  induction m with
  | nil => simp [Memory.write, Memory.read]
  | cons x m ih =>
    obtain ⟨a, b⟩ := x
    simp only [Memory.write]
    split_ifs with h1 h2
    · simp [Memory.read]
    · simp [Memory.read, h2]
    · simpa [Memory.read, h2] using ih

theorem Memory.read_write_other (m : Memory) {k k' : Nat} (v : Byte) (h : k' ≠ k) :
    (m.write k v).read k' = m.read k' := by
  induction m with
  | nil => simp [Memory.write, Memory.read, h]
  | cons x m ih =>
    obtain ⟨a, b⟩ := x
    simp only [Memory.write]
    split_ifs with h1 h2
    · simp [Memory.read, h]
    · subst h2; simp [Memory.read, h]
    · simp only [Memory.read]; split_ifs
      · rfl
      · exact ih

/-- The addresses a write leaves listed. -/
theorem Memory.mem_addresses_write (m : Memory) (k : Nat) (v : Byte) (a : Nat) :
    a ∈ (m.write k v).map Prod.fst ↔ a = k ∨ a ∈ m.map Prod.fst := by
  induction m with
  | nil => simp [Memory.write]
  | cons x m ih =>
    obtain ⟨b, w⟩ := x
    simp only [Memory.write]
    split_ifs with h1 h2
    · simp
    · subst h2; simp
    · simp only [List.map_cons, List.mem_cons, ih]; tauto

/-- The empty byte space is canonical, and reset leaves both spaces so. -/
theorem Memory.wf_nil : Memory.wf [] := List.Pairwise.nil

theorem reset_memories_wf : State.reset.msg.wf ∧ State.reset.out.wf := ⟨Memory.wf_nil, Memory.wf_nil⟩

/-- A write keeps the canonical form. -/
theorem Memory.write_wf {m : Memory} (h : m.wf) (k : Nat) (v : Byte) : (m.write k v).wf := by
  induction m with
  | nil => simp [Memory.write, Memory.wf]
  | cons x m ih =>
    obtain ⟨a, b⟩ := x
    obtain ⟨ha, hm⟩ := List.pairwise_cons.mp (show List.Pairwise (· < ·) (a :: m.map Prod.fst) from h)
    simp only [Memory.write]
    split_ifs with h1 h2
    · refine List.pairwise_cons.mpr ⟨fun y hy => ?_, h⟩
      rcases List.mem_cons.mp (show y ∈ a :: m.map Prod.fst from hy) with rfl | hy
      · exact h1
      · exact h1.trans (ha y hy)
    · exact List.pairwise_cons.mpr ⟨ha, hm⟩
    · refine List.pairwise_cons.mpr ⟨fun y hy => ?_, ih hm⟩
      rcases (Memory.mem_addresses_write m k v y).mp hy with rfl | hy
      · show a < y; omega
      · exact ha y hy

theorem Memory.addresses_listFrom (k : Nat) (bs : List Byte) :
    (Memory.listFrom k bs).map Prod.fst = List.range' k bs.length := by
  induction bs generalizing k with
  | nil => rfl
  | cons b bs ih => simp [Memory.listFrom, ih, List.range'_succ]

/-- A byte sequence fills the addresses below its length. -/
theorem Memory.holds_ofBytes (bs : List Byte) : (Memory.ofBytes bs).holds bs.length := by
  simp [Memory.holds, Memory.ofBytes, Memory.addresses_listFrom, List.range_eq_range']

theorem Memory.wf_of_holds {m : Memory} {n : Nat} (h : m.holds n) : m.wf := by
  unfold Memory.wf; rw [h]; exact List.pairwise_lt_range

/-- The memory of a byte sequence is canonical. -/
theorem Memory.ofBytes_wf (bs : List Byte) : (Memory.ofBytes bs).wf := Memory.wf_of_holds (Memory.holds_ofBytes bs)

@[simp] theorem Memory.bytes_ofBytes (bs : List Byte) : (Memory.ofBytes bs).bytes = bs := by
  suffices h : ∀ k, (Memory.listFrom k bs).map Prod.snd = bs from h 0
  induction bs with
  | nil => intro k; rfl
  | cons b bs ih => intro k; simp [Memory.listFrom, ih]

/-- Writing above every listed address appends. -/
theorem Memory.write_above {m : Memory} {k : Nat} (v : Byte) (h : ∀ a ∈ m.map Prod.fst, a < k) :
    m.write k v = m ++ [(k, v)] := by
  induction m with
  | nil => rfl
  | cons x m ih =>
    obtain ⟨a, b⟩ := x
    have ha : a < k := h a (by simp)
    have hm := ih fun y hy => h y (by simp at hy ⊢; exact Or.inr hy)
    simp only [Memory.write]
    rw [if_neg (by omega), if_neg (by omega), hm]; rfl

/-- Writing at the length of a filled buffer appends the byte. -/
theorem Memory.write_of_holds {m : Memory} {n : Nat} (h : m.holds n) (v : Byte) : m.write n v = m ++ [(n, v)] :=
  Memory.write_above v fun a ha => by rw [h] at ha; exact List.mem_range.mp ha

theorem Memory.holds_write {m : Memory} {n : Nat} (h : m.holds n) (v : Byte) : (m.write n v).holds (n + 1) := by
  rw [Memory.holds, Memory.write_of_holds h, List.map_append, h, List.range_succ]; rfl

theorem Memory.read_listFrom (bs : List Byte) (k a : Nat) :
    (Memory.listFrom k bs).read a = if k ≤ a then bs[a - k]? else none := by
  induction bs generalizing k with
  | nil => simp [Memory.listFrom]
  | cons b bs ih =>
    simp only [Memory.listFrom, Memory.read]
    split_ifs with h1 h2 h2
    · subst h1; simp
    · omega
    · rw [ih, if_pos (by omega), show a - k = (a - (k + 1)) + 1 by omega, List.getElem?_cons_succ]
    · rw [ih, if_neg (by omega)]

@[simp] theorem Memory.read_ofBytes (bs : List Byte) (a : Nat) : (Memory.ofBytes bs).read a = bs[a]? := by
  simp [Memory.ofBytes, Memory.read_listFrom]

/-- A filled buffer is the memory of its own bytes. -/
theorem Memory.eq_ofBytes_of_holds {m : Memory} {n : Nat} (h : m.holds n) : m = Memory.ofBytes m.bytes := by
  have hl : m.bytes.length = n := by
    have := congrArg List.length h; simpa [Memory.bytes] using this
  have hz : ∀ (l : List Byte) (k : Nat), Memory.listFrom k l = (List.range' k l.length).zip l := by
    intro l
    induction l with
    | nil => intro k; rfl
    | cons b l ih => intro k; simp [Memory.listFrom, ih, List.range'_succ]
  rw [Memory.ofBytes, hz, hl, ← List.range_eq_range', ← h, Memory.bytes]
  exact List.zip_of_prod rfl rfl

theorem Memory.length_bytes_of_holds {m : Memory} {n : Nat} (h : m.holds n) : m.bytes.length = n := by
  simpa [Memory.bytes] using congrArg List.length h

/-- In a filled buffer exactly the addresses below the length hold a byte. -/
theorem Memory.read_of_holds {m : Memory} {n : Nat} (h : m.holds n) (k : Nat) : m.read k = m.bytes[k]? := by
  conv_lhs => rw [Memory.eq_ofBytes_of_holds h]
  exact Memory.read_ofBytes _ _

/-- The bytes a read of several answers are those the single reads answer. -/
theorem Memory.readBytes_eq_some {m : Memory} {a n : Nat} {bs : List Byte} :
    m.readBytes a n = some bs ↔ bs.length = n ∧ ∀ j, j < n → m.read (a + j) = bs[j]? := by
  induction n generalizing a bs with
  | zero =>
    constructor
    · intro h; cases h; simp
    · rintro ⟨h, -⟩; rw [List.length_eq_zero_iff.mp h]; rfl
  | succ n ih =>
    constructor
    · intro h
      simp only [Memory.readBytes] at h
      split at h
      · cases h
      · rename_i b hb
        split at h
        · cases h
        · rename_i tl htl
          cases h
          obtain ⟨hl, hr⟩ := ih.mp htl
          refine ⟨by simp [hl], fun j hj => ?_⟩
          cases j with
          | zero => simpa using hb
          | succ j => simpa [Nat.add_assoc, Nat.add_comm 1] using hr j (by omega)
    · rintro ⟨hl, hr⟩
      cases bs with
      | nil => simp at hl
      | cons b tl =>
        have h0 : m.read a = some b := by simpa using hr 0 (by omega)
        have ht : m.readBytes (a + 1) n = some tl :=
          ih.mpr ⟨by simpa using hl, fun j hj => by simpa [Nat.add_assoc, Nat.add_comm 1] using hr (j + 1) (by omega)⟩
        simp [Memory.readBytes, h0, ht]

/-- The words a read of several answers are those the single reads answer. -/
theorem Memory.readWords_eq_some {m : Memory} {a n : Nat} {ws : List Lane} :
    m.readWords a n = some ws ↔ ws.length = n ∧ ∀ j, j < n → m.readWord (a + 8 * j) = ws[j]? := by
  induction n generalizing a ws with
  | zero =>
    constructor
    · intro h; cases h; simp
    · rintro ⟨h, -⟩; rw [List.length_eq_zero_iff.mp h]; rfl
  | succ n ih =>
    constructor
    · intro h
      simp only [Memory.readWords] at h
      split at h
      · cases h
      · rename_i w hw
        split at h
        · cases h
        · rename_i tl htl
          cases h
          obtain ⟨hl, hr⟩ := ih.mp htl
          refine ⟨by simp [hl], fun j hj => ?_⟩
          cases j with
          | zero => simpa using hw
          | succ j => have := hr j (by omega); rw [show a + 8 + 8 * j = a + 8 * (j + 1) by omega] at this; simpa using this
    · rintro ⟨hl, hr⟩
      cases ws with
      | nil => simp at hl
      | cons w tl =>
        have h0 : m.readWord a = some w := by simpa using hr 0 (by omega)
        have ht : m.readWords (a + 8) n = some tl :=
          ih.mpr ⟨by simpa using hl, fun j hj => by
            have := hr (j + 1) (by omega); rw [show a + 8 * (j + 1) = a + 8 + 8 * j by omega] at this; simpa using this⟩
        simp [Memory.readWords, h0, ht]

/-- Eight bytes that exist are read as one little-endian word (R34). -/
theorem Memory.readWord_ofBytes {bs : List Byte} {a : Nat} (h : a + 8 ≤ bs.length) :
    (Memory.ofBytes bs).readWord a = some (le64 ((bs.drop a).take 8)) := by
  have : (Memory.ofBytes bs).readBytes a 8 = some ((bs.drop a).take 8) := by
    refine Memory.readBytes_eq_some.mpr ⟨by simp; omega, fun j hj => ?_⟩
    simp [hj]
  simp [Memory.readWord, this]

end Sys2Proof.Machine
end

