-- ==== Sys2Proof/Laws/Params.lean ====
section
/-! SUPPORT. Facts of the parameters: the rates, the sizes, the capacity test (00_scope.md R4, R5). -/

namespace Sys2Proof.Machine

/-- R5: a block is its lanes of eight bytes. -/
theorem rateBytes_eq (d : DigestSize) : rateBytes d = 8 * rateLanes d := by cases d <;> rfl

theorem rateBytes_ge (d : DigestSize) : 72 ≤ rateBytes d := by cases d <;> decide

theorem rateBytes_le (d : DigestSize) : rateBytes d ≤ 144 := by cases d <;> decide

theorem rateBytes_pos (d : DigestSize) : 0 < rateBytes d := (rateBytes_ge d).trans_lt' (by decide)

theorem rateLanes_le (d : DigestSize) : rateLanes d ≤ 18 := by cases d <;> decide

theorem digestBytes_pos (d : DigestSize) : 0 < digestBytes d := by cases d <;> decide

/-- R120: a digest is at most one block. -/
theorem digestBytes_le (d : DigestSize) : digestBytes d ≤ rateBytes d := by cases d <;> decide

@[simp] theorem squeezeBytes_sizeWord (d : DigestSize) : squeezeBytes (sizeWord d) = digestBytes d := by cases d <;> decide

@[simp] theorem legalSize?_sizeWord (d : DigestSize) : legalSize? (sizeWord d) = some d := by cases d <;> decide

/-- A number names a digest size exactly when it is that size's word. -/
theorem legalSize?_eq_some {n : BitVec 16} {d : DigestSize} : legalSize? n = some d ↔ n = sizeWord d := by
  constructor
  · intro h
    unfold legalSize? at h
    split_ifs at h <;> cases h <;> subst_vars <;> decide
  · rintro rfl; exact legalSize?_sizeWord d

theorem legalSize?_eq_none {n : BitVec 16} : legalSize? n = none ↔ n.toNat ∉ [224, 256, 384, 512] := by
  unfold legalSize?
  have h : ∀ k : Nat, k < 65536 → (n = BitVec.ofNat 16 k ↔ n.toNat = k) := fun k hk => by
    rw [← BitVec.toNat_inj, BitVec.toNat_ofNat, Nat.mod_eq_of_lt (by omega)]
  have h1 := h 224 (by decide); have h2 := h 256 (by decide); have h3 := h 384 (by decide); have h4 := h 512 (by decide)
  split_ifs <;> simp_all

theorem sizeOf?_eq_some {s : State} {d : DigestSize} : sizeOf? s = some d ↔ s.size = sizeWord d := legalSize?_eq_some

/-- R138: a length fits exactly when it does not exceed the capacity. -/
theorem fits_eq_true {s : State} {n : Nat} : fits s n = true ↔ ¬ exceedsCap s n := by
  unfold fits exceedsCap
  split <;> simp_all

theorem fits_eq_false {s : State} {n : Nat} : fits s n = false ↔ exceedsCap s n := by
  rw [← Bool.not_eq_true, fits_eq_true, not_not]

theorem fits_mono {s : State} {m n : Nat} (h : fits s n = true) (hm : m ≤ n) : fits s m = true := by
  unfold fits at *
  split at h <;> simp_all; omega

theorem padCount_pos (d : DigestSize) (n : Nat) : 1 ≤ padCount d n := by
  have := Nat.mod_lt n (rateBytes_pos d); unfold padCount; omega

/-- R113: the two forms of the padded length. -/
theorem paddedLength_eq (d : DigestSize) (n : Nat) : paddedLength d n = leastMultipleAbove d n := by
  have h1 := Nat.mod_lt n (rateBytes_pos d)
  have h2 := Nat.div_add_mod n (rateBytes d)
  unfold paddedLength leastMultipleAbove padCount
  rw [Nat.mul_add, Nat.mul_one]; omega

theorem length_padBytes {q : Nat} (h : 1 ≤ q) : (padBytes q).length = q := by
  unfold padBytes
  split
  · simp_all
  · simp; omega

end Sys2Proof.Machine
end

