-- ==== Sys2Proof/Laws/State.lean ====
section
/-! SUPPORT. What each update of the state does to each field, and the updates that change nothing. -/

namespace Sys2Proof.Machine

variable (s : State)

@[simp] theorem State.setLanes_lanes (a : LaneArray) : (s.setLanes a).lanes = a := rfl
@[simp] theorem State.setLanes_cfg (a : LaneArray) : (s.setLanes a).cfg = s.cfg := rfl
@[simp] theorem State.setLanes_size (a : LaneArray) : (s.setLanes a).size = s.size := rfl
@[simp] theorem State.setLanes_err (a : LaneArray) : (s.setLanes a).err = s.err := rfl
@[simp] theorem State.setLanes_errcmd (a : LaneArray) : (s.setLanes a).errcmd = s.errcmd := rfl
@[simp] theorem State.setLanes_msg (a : LaneArray) : (s.setLanes a).msg = s.msg := rfl
@[simp] theorem State.setLanes_mlen (a : LaneArray) : (s.setLanes a).mlen = s.mlen := rfl
@[simp] theorem State.setLanes_blk (a : LaneArray) : (s.setLanes a).blk = s.blk := rfl
@[simp] theorem State.setLanes_out (a : LaneArray) : (s.setLanes a).out = s.out := rfl
@[simp] theorem State.setLanes_olen (a : LaneArray) : (s.setLanes a).olen = s.olen := rfl
@[simp] theorem State.setLanes_config (a : LaneArray) : (s.setLanes a).config = s.config := rfl
@[simp] theorem State.setLanes_resets (a : LaneArray) : (s.setLanes a).resets = s.resets := rfl
@[simp] theorem State.setLanes_input (a : LaneArray) : (s.setLanes a).input = s.input := rfl
@[simp] theorem State.setLanes_replies (a : LaneArray) : (s.setLanes a).replies = s.replies := rfl

@[simp] theorem State.setSize_lanes (n : BitVec 16) : (s.setSize n).lanes = s.lanes := rfl
@[simp] theorem State.setSize_cfg (n : BitVec 16) : (s.setSize n).cfg = true := rfl
@[simp] theorem State.setSize_size (n : BitVec 16) : (s.setSize n).size = n := rfl
@[simp] theorem State.setSize_err (n : BitVec 16) : (s.setSize n).err = s.err := rfl
@[simp] theorem State.setSize_errcmd (n : BitVec 16) : (s.setSize n).errcmd = s.errcmd := rfl
@[simp] theorem State.setSize_msg (n : BitVec 16) : (s.setSize n).msg = s.msg := rfl
@[simp] theorem State.setSize_mlen (n : BitVec 16) : (s.setSize n).mlen = s.mlen := rfl
@[simp] theorem State.setSize_blk (n : BitVec 16) : (s.setSize n).blk = s.blk := rfl
@[simp] theorem State.setSize_out (n : BitVec 16) : (s.setSize n).out = s.out := rfl
@[simp] theorem State.setSize_olen (n : BitVec 16) : (s.setSize n).olen = s.olen := rfl
@[simp] theorem State.setSize_config (n : BitVec 16) : (s.setSize n).config = s.config := rfl
@[simp] theorem State.setSize_resets (n : BitVec 16) : (s.setSize n).resets = s.resets := rfl
@[simp] theorem State.setSize_input (n : BitVec 16) : (s.setSize n).input = s.input := rfl
@[simp] theorem State.setSize_replies (n : BitVec 16) : (s.setSize n).replies = s.replies := rfl

@[simp] theorem State.setMsg_lanes (m : Memory) (n : Nat) : (s.setMsg m n).lanes = s.lanes := rfl
@[simp] theorem State.setMsg_cfg (m : Memory) (n : Nat) : (s.setMsg m n).cfg = s.cfg := rfl
@[simp] theorem State.setMsg_size (m : Memory) (n : Nat) : (s.setMsg m n).size = s.size := rfl
@[simp] theorem State.setMsg_err (m : Memory) (n : Nat) : (s.setMsg m n).err = s.err := rfl
@[simp] theorem State.setMsg_errcmd (m : Memory) (n : Nat) : (s.setMsg m n).errcmd = s.errcmd := rfl
@[simp] theorem State.setMsg_msg (m : Memory) (n : Nat) : (s.setMsg m n).msg = m := rfl
@[simp] theorem State.setMsg_mlen (m : Memory) (n : Nat) : (s.setMsg m n).mlen = n := rfl
@[simp] theorem State.setMsg_blk (m : Memory) (n : Nat) : (s.setMsg m n).blk = s.blk := rfl
@[simp] theorem State.setMsg_out (m : Memory) (n : Nat) : (s.setMsg m n).out = s.out := rfl
@[simp] theorem State.setMsg_olen (m : Memory) (n : Nat) : (s.setMsg m n).olen = s.olen := rfl
@[simp] theorem State.setMsg_config (m : Memory) (n : Nat) : (s.setMsg m n).config = s.config := rfl
@[simp] theorem State.setMsg_resets (m : Memory) (n : Nat) : (s.setMsg m n).resets = s.resets := rfl
@[simp] theorem State.setMsg_input (m : Memory) (n : Nat) : (s.setMsg m n).input = s.input := rfl
@[simp] theorem State.setMsg_replies (m : Memory) (n : Nat) : (s.setMsg m n).replies = s.replies := rfl

@[simp] theorem State.setBlk_lanes (n : Nat) : (s.setBlk n).lanes = s.lanes := rfl
@[simp] theorem State.setBlk_cfg (n : Nat) : (s.setBlk n).cfg = s.cfg := rfl
@[simp] theorem State.setBlk_size (n : Nat) : (s.setBlk n).size = s.size := rfl
@[simp] theorem State.setBlk_err (n : Nat) : (s.setBlk n).err = s.err := rfl
@[simp] theorem State.setBlk_errcmd (n : Nat) : (s.setBlk n).errcmd = s.errcmd := rfl
@[simp] theorem State.setBlk_msg (n : Nat) : (s.setBlk n).msg = s.msg := rfl
@[simp] theorem State.setBlk_mlen (n : Nat) : (s.setBlk n).mlen = s.mlen := rfl
@[simp] theorem State.setBlk_blk (n : Nat) : (s.setBlk n).blk = n := rfl
@[simp] theorem State.setBlk_out (n : Nat) : (s.setBlk n).out = s.out := rfl
@[simp] theorem State.setBlk_olen (n : Nat) : (s.setBlk n).olen = s.olen := rfl
@[simp] theorem State.setBlk_config (n : Nat) : (s.setBlk n).config = s.config := rfl
@[simp] theorem State.setBlk_resets (n : Nat) : (s.setBlk n).resets = s.resets := rfl
@[simp] theorem State.setBlk_input (n : Nat) : (s.setBlk n).input = s.input := rfl
@[simp] theorem State.setBlk_replies (n : Nat) : (s.setBlk n).replies = s.replies := rfl

@[simp] theorem State.setOut_lanes (m : Memory) (n : BitVec 13) : (s.setOut m n).lanes = s.lanes := rfl
@[simp] theorem State.setOut_cfg (m : Memory) (n : BitVec 13) : (s.setOut m n).cfg = s.cfg := rfl
@[simp] theorem State.setOut_size (m : Memory) (n : BitVec 13) : (s.setOut m n).size = s.size := rfl
@[simp] theorem State.setOut_err (m : Memory) (n : BitVec 13) : (s.setOut m n).err = s.err := rfl
@[simp] theorem State.setOut_errcmd (m : Memory) (n : BitVec 13) : (s.setOut m n).errcmd = s.errcmd := rfl
@[simp] theorem State.setOut_msg (m : Memory) (n : BitVec 13) : (s.setOut m n).msg = s.msg := rfl
@[simp] theorem State.setOut_mlen (m : Memory) (n : BitVec 13) : (s.setOut m n).mlen = s.mlen := rfl
@[simp] theorem State.setOut_blk (m : Memory) (n : BitVec 13) : (s.setOut m n).blk = s.blk := rfl
@[simp] theorem State.setOut_out (m : Memory) (n : BitVec 13) : (s.setOut m n).out = m := rfl
@[simp] theorem State.setOut_olen (m : Memory) (n : BitVec 13) : (s.setOut m n).olen = n := rfl
@[simp] theorem State.setOut_config (m : Memory) (n : BitVec 13) : (s.setOut m n).config = s.config := rfl
@[simp] theorem State.setOut_resets (m : Memory) (n : BitVec 13) : (s.setOut m n).resets = s.resets := rfl
@[simp] theorem State.setOut_input (m : Memory) (n : BitVec 13) : (s.setOut m n).input = s.input := rfl
@[simp] theorem State.setOut_replies (m : Memory) (n : BitVec 13) : (s.setOut m n).replies = s.replies := rfl

@[simp] theorem State.setErr_lanes (e : BitVec 4) (cmd : CmdWord) : (s.setErr e cmd).lanes = s.lanes := rfl
@[simp] theorem State.setErr_cfg (e : BitVec 4) (cmd : CmdWord) : (s.setErr e cmd).cfg = s.cfg := rfl
@[simp] theorem State.setErr_size (e : BitVec 4) (cmd : CmdWord) : (s.setErr e cmd).size = s.size := rfl
@[simp] theorem State.setErr_err (e : BitVec 4) (cmd : CmdWord) : (s.setErr e cmd).err = e := rfl
@[simp] theorem State.setErr_errcmd (e : BitVec 4) (cmd : CmdWord) : (s.setErr e cmd).errcmd = cmd := rfl
@[simp] theorem State.setErr_msg (e : BitVec 4) (cmd : CmdWord) : (s.setErr e cmd).msg = s.msg := rfl
@[simp] theorem State.setErr_mlen (e : BitVec 4) (cmd : CmdWord) : (s.setErr e cmd).mlen = s.mlen := rfl
@[simp] theorem State.setErr_blk (e : BitVec 4) (cmd : CmdWord) : (s.setErr e cmd).blk = s.blk := rfl
@[simp] theorem State.setErr_out (e : BitVec 4) (cmd : CmdWord) : (s.setErr e cmd).out = s.out := rfl
@[simp] theorem State.setErr_olen (e : BitVec 4) (cmd : CmdWord) : (s.setErr e cmd).olen = s.olen := rfl
@[simp] theorem State.setErr_config (e : BitVec 4) (cmd : CmdWord) : (s.setErr e cmd).config = s.config := rfl
@[simp] theorem State.setErr_resets (e : BitVec 4) (cmd : CmdWord) : (s.setErr e cmd).resets = s.resets := rfl
@[simp] theorem State.setErr_input (e : BitVec 4) (cmd : CmdWord) : (s.setErr e cmd).input = s.input := rfl
@[simp] theorem State.setErr_replies (e : BitVec 4) (cmd : CmdWord) : (s.setErr e cmd).replies = s.replies := rfl

@[simp] theorem State.setInput_lanes (q : List HostAction) : (s.setInput q).lanes = s.lanes := rfl
@[simp] theorem State.setInput_cfg (q : List HostAction) : (s.setInput q).cfg = s.cfg := rfl
@[simp] theorem State.setInput_size (q : List HostAction) : (s.setInput q).size = s.size := rfl
@[simp] theorem State.setInput_err (q : List HostAction) : (s.setInput q).err = s.err := rfl
@[simp] theorem State.setInput_errcmd (q : List HostAction) : (s.setInput q).errcmd = s.errcmd := rfl
@[simp] theorem State.setInput_msg (q : List HostAction) : (s.setInput q).msg = s.msg := rfl
@[simp] theorem State.setInput_mlen (q : List HostAction) : (s.setInput q).mlen = s.mlen := rfl
@[simp] theorem State.setInput_blk (q : List HostAction) : (s.setInput q).blk = s.blk := rfl
@[simp] theorem State.setInput_out (q : List HostAction) : (s.setInput q).out = s.out := rfl
@[simp] theorem State.setInput_olen (q : List HostAction) : (s.setInput q).olen = s.olen := rfl
@[simp] theorem State.setInput_config (q : List HostAction) : (s.setInput q).config = s.config := rfl
@[simp] theorem State.setInput_resets (q : List HostAction) : (s.setInput q).resets = s.resets := rfl
@[simp] theorem State.setInput_input (q : List HostAction) : (s.setInput q).input = q := rfl
@[simp] theorem State.setInput_replies (q : List HostAction) : (s.setInput q).replies = s.replies := rfl

@[simp] theorem State.addReply_lanes (r : HostReply) : (s.addReply r).lanes = s.lanes := rfl
@[simp] theorem State.addReply_cfg (r : HostReply) : (s.addReply r).cfg = s.cfg := rfl
@[simp] theorem State.addReply_size (r : HostReply) : (s.addReply r).size = s.size := rfl
@[simp] theorem State.addReply_err (r : HostReply) : (s.addReply r).err = s.err := rfl
@[simp] theorem State.addReply_errcmd (r : HostReply) : (s.addReply r).errcmd = s.errcmd := rfl
@[simp] theorem State.addReply_msg (r : HostReply) : (s.addReply r).msg = s.msg := rfl
@[simp] theorem State.addReply_mlen (r : HostReply) : (s.addReply r).mlen = s.mlen := rfl
@[simp] theorem State.addReply_blk (r : HostReply) : (s.addReply r).blk = s.blk := rfl
@[simp] theorem State.addReply_out (r : HostReply) : (s.addReply r).out = s.out := rfl
@[simp] theorem State.addReply_olen (r : HostReply) : (s.addReply r).olen = s.olen := rfl
@[simp] theorem State.addReply_config (r : HostReply) : (s.addReply r).config = s.config := rfl
@[simp] theorem State.addReply_resets (r : HostReply) : (s.addReply r).resets = s.resets := rfl
@[simp] theorem State.addReply_input (r : HostReply) : (s.addReply r).input = s.input := rfl
@[simp] theorem State.addReply_replies (r : HostReply) : (s.addReply r).replies = s.replies ++ [r] := rfl

@[simp] theorem State.faulted_lanes (f : FaultCode) (cmd : CmdWord) : (s.faulted f cmd).lanes = s.lanes := rfl
@[simp] theorem State.faulted_cfg (f : FaultCode) (cmd : CmdWord) : (s.faulted f cmd).cfg = s.cfg := rfl
@[simp] theorem State.faulted_size (f : FaultCode) (cmd : CmdWord) : (s.faulted f cmd).size = s.size := rfl
@[simp] theorem State.faulted_err (f : FaultCode) (cmd : CmdWord) : (s.faulted f cmd).err = faultCode f := rfl
@[simp] theorem State.faulted_errcmd (f : FaultCode) (cmd : CmdWord) : (s.faulted f cmd).errcmd = cmd := rfl
@[simp] theorem State.faulted_msg (f : FaultCode) (cmd : CmdWord) : (s.faulted f cmd).msg = s.msg := rfl
@[simp] theorem State.faulted_mlen (f : FaultCode) (cmd : CmdWord) : (s.faulted f cmd).mlen = s.mlen := rfl
@[simp] theorem State.faulted_blk (f : FaultCode) (cmd : CmdWord) : (s.faulted f cmd).blk = s.blk := rfl
@[simp] theorem State.faulted_out (f : FaultCode) (cmd : CmdWord) : (s.faulted f cmd).out = s.out := rfl
@[simp] theorem State.faulted_olen (f : FaultCode) (cmd : CmdWord) : (s.faulted f cmd).olen = s.olen := rfl
@[simp] theorem State.faulted_config (f : FaultCode) (cmd : CmdWord) : (s.faulted f cmd).config = s.config := rfl
@[simp] theorem State.faulted_resets (f : FaultCode) (cmd : CmdWord) : (s.faulted f cmd).resets = s.resets := rfl
@[simp] theorem State.faulted_input (f : FaultCode) (cmd : CmdWord) : (s.faulted f cmd).input = s.input := rfl
@[simp] theorem State.faulted_replies (f : FaultCode) (cmd : CmdWord) : (s.faulted f cmd).replies = s.replies := rfl

@[simp] theorem State.hostReset_lanes : s.hostReset.lanes = unspecifiedLanes (s.resets + 1) := rfl
@[simp] theorem State.hostReset_cfg : s.hostReset.cfg = false := rfl
@[simp] theorem State.hostReset_size : s.hostReset.size = Config.unspecifiedSize (s.resets + 1) := rfl
@[simp] theorem State.hostReset_err : s.hostReset.err = 0 := rfl
@[simp] theorem State.hostReset_errcmd : s.hostReset.errcmd = 0 := rfl
@[simp] theorem State.hostReset_msg : s.hostReset.msg = [] := rfl
@[simp] theorem State.hostReset_mlen : s.hostReset.mlen = 0 := rfl
@[simp] theorem State.hostReset_blk : s.hostReset.blk = 0 := rfl
@[simp] theorem State.hostReset_out : s.hostReset.out = [] := rfl
@[simp] theorem State.hostReset_olen : s.hostReset.olen = 0 := rfl
@[simp] theorem State.hostReset_config : s.hostReset.config = s.config := rfl
@[simp] theorem State.hostReset_resets : s.hostReset.resets = s.resets + 1 := rfl
@[simp] theorem State.hostReset_input : s.hostReset.input = s.input := rfl
@[simp] theorem State.hostReset_replies : s.hostReset.replies = s.replies := rfl

@[simp] theorem State.initialised_lanes (d : DigestSize) : (s.initialised d).lanes = zeroLanes := rfl
@[simp] theorem State.initialised_cfg (d : DigestSize) : (s.initialised d).cfg = true := rfl
@[simp] theorem State.initialised_size (d : DigestSize) : (s.initialised d).size = sizeWord d := rfl
@[simp] theorem State.initialised_err (d : DigestSize) : (s.initialised d).err = s.err := rfl
@[simp] theorem State.initialised_errcmd (d : DigestSize) : (s.initialised d).errcmd = s.errcmd := rfl
@[simp] theorem State.initialised_msg (d : DigestSize) : (s.initialised d).msg = s.msg := rfl
@[simp] theorem State.initialised_mlen (d : DigestSize) : (s.initialised d).mlen = s.mlen := rfl
@[simp] theorem State.initialised_blk (d : DigestSize) : (s.initialised d).blk = 0 := rfl
@[simp] theorem State.initialised_out (d : DigestSize) : (s.initialised d).out = [] := rfl
@[simp] theorem State.initialised_olen (d : DigestSize) : (s.initialised d).olen = 0 := rfl
@[simp] theorem State.initialised_config (d : DigestSize) : (s.initialised d).config = s.config := rfl
@[simp] theorem State.initialised_resets (d : DigestSize) : (s.initialised d).resets = s.resets := rfl
@[simp] theorem State.initialised_input (d : DigestSize) : (s.initialised d).input = s.input := rfl
@[simp] theorem State.initialised_replies (d : DigestSize) : (s.initialised d).replies = s.replies := rfl

@[simp] theorem State.appended_lanes (b : Byte) : (s.appended b).lanes = s.lanes := rfl
@[simp] theorem State.appended_cfg (b : Byte) : (s.appended b).cfg = s.cfg := rfl
@[simp] theorem State.appended_size (b : Byte) : (s.appended b).size = s.size := rfl
@[simp] theorem State.appended_err (b : Byte) : (s.appended b).err = s.err := rfl
@[simp] theorem State.appended_errcmd (b : Byte) : (s.appended b).errcmd = s.errcmd := rfl
@[simp] theorem State.appended_msg (b : Byte) : (s.appended b).msg = s.msg.write s.mlen b := rfl
@[simp] theorem State.appended_mlen (b : Byte) : (s.appended b).mlen = s.mlen + 1 := rfl
@[simp] theorem State.appended_blk (b : Byte) : (s.appended b).blk = s.blk := rfl
@[simp] theorem State.appended_out (b : Byte) : (s.appended b).out = s.out := rfl
@[simp] theorem State.appended_olen (b : Byte) : (s.appended b).olen = s.olen := rfl
@[simp] theorem State.appended_config (b : Byte) : (s.appended b).config = s.config := rfl
@[simp] theorem State.appended_resets (b : Byte) : (s.appended b).resets = s.resets := rfl
@[simp] theorem State.appended_input (b : Byte) : (s.appended b).input = s.input := rfl
@[simp] theorem State.appended_replies (b : Byte) : (s.appended b).replies = s.replies := rfl

@[simp] theorem State.setLanes_self : s.setLanes s.lanes = s := rfl
@[simp] theorem State.setMsg_self : s.setMsg s.msg s.mlen = s := rfl
@[simp] theorem State.setBlk_self : s.setBlk s.blk = s := rfl
@[simp] theorem State.setOut_self : s.setOut s.out s.olen = s := rfl
@[simp] theorem State.setErr_self : s.setErr s.err s.errcmd = s := rfl
@[simp] theorem State.setInput_self : s.setInput s.input = s := rfl

end Sys2Proof.Machine
end

