-- ==== Sys2Proof/Laws/Buffer.lean ====
section
/-! SUPPORT. What appending to the message buffer, padding it and reading a block of it do (42_padding.md, 41_sponge.md R92). -/

namespace Sys2Proof.Machine

/-- Appending a byte sequence writes its bytes from `MLEN` on, advances `MLEN` past them, and nothing else. -/
theorem State.appendedAll_eq (bs : List Byte) (s : State) :
    ∃ m, s.appendedAll bs = s.setMsg m (s.mlen + bs.length) ∧
      ∀ k, m.read k = if s.mlen ≤ k ∧ k < s.mlen + bs.length then bs[k - s.mlen]? else s.msg.read k := by
  induction bs generalizing s with
  | nil => exact ⟨s.msg, rfl, fun k => by simp only [List.length_nil]; rw [if_neg (by omega)]⟩
  | cons b bs ih =>
    obtain ⟨m, hm, hr⟩ := ih (s.appended b)
    refine ⟨m, ?_, fun k => ?_⟩
    · show (s.appended b).appendedAll bs = _
      rw [hm]
      simp only [State.appended, State.setMsg, List.length_cons]
      congr 1; omega
    · rw [hr, State.appended_mlen, List.length_cons]
      rcases lt_trichotomy k s.mlen with hk | rfl | hk
      · rw [if_neg (by omega), if_neg (by omega)]; exact Memory.read_write_other _ _ (by omega)
      · rw [if_neg (by omega), if_pos (by omega)]; simp [State.appended, State.setMsg]
      · split_ifs
        · rw [show k - s.mlen = (k - (s.mlen + 1)) + 1 by omega, List.getElem?_cons_succ]
        · omega
        · omega
        · exact Memory.read_write_other _ _ (by omega)

/-- Appending to a whole message leaves a whole message: its bytes, then those appended. -/
theorem State.appendedAll_of_messageInv (bs : List Byte) {s : State} (h : s.messageInv) :
    s.appendedAll bs = s.setMsg (Memory.ofBytes (s.msg.bytes ++ bs)) (s.mlen + bs.length) := by
  induction bs generalizing s with
  | nil => simp [State.appendedAll, ← Memory.eq_ofBytes_of_holds h]
  | cons b bs ih =>
    have hinv : (s.appended b).messageInv := Memory.holds_write h b
    show (s.appended b).appendedAll bs = _
    rw [ih hinv]
    simp only [State.appended, State.setMsg, Memory.write_of_holds h, Memory.bytes, List.map_append, List.map_cons, List.map_nil,
      List.append_assoc, List.cons_append, List.nil_append, List.length_cons]
    congr 1; omega

/-- `PAD` on a whole message (R112, R113). -/
theorem State.padded_of_messageInv {s : State} (d : DigestSize) (h : s.messageInv) :
    s.padded d =
      s.setMsg (Memory.ofBytes (s.msg.bytes ++ padBytes (padCount d s.mlen))) (leastMultipleAbove d s.mlen) := by
  rw [State.padded, State.appendedAll_of_messageInv _ h, length_padBytes (padCount_pos d _), ← paddedLength_eq]; rfl

@[simp] theorem length_wordsOf (n : Nat) (bs : List Byte) : (wordsOf n bs).length = n := by
  induction n generalizing bs with
  | zero => rfl
  | succ n ih => simp [wordsOf, ih]

/-- Word `j` of a byte sequence is its bytes `8j` to `8j + 7`. -/
theorem getElem?_wordsOf (n : Nat) (bs : List Byte) {j : Nat} (h : j < n) :
    (wordsOf n bs)[j]? = some (le64 ((bs.drop (8 * j)).take 8)) := by
  induction n generalizing bs j with
  | zero => omega
  | succ n ih =>
    cases j with
    | zero => simp [wordsOf]
    | succ j =>
      rw [wordsOf, List.getElem?_cons_succ, ih _ (by omega), List.drop_drop]
      congr 4; omega

/-- The words of a message that is long enough are those of its bytes (R92). -/
theorem Memory.readWords_ofBytes {bs : List Byte} {a n : Nat} (h : a + 8 * n ≤ bs.length) :
    (Memory.ofBytes bs).readWords a n = some (wordsOf n (bs.drop a)) := by
  refine Memory.readWords_eq_some.mpr ⟨length_wordsOf _ _, fun j hj => ?_⟩
  rw [getElem?_wordsOf _ _ hj, Memory.readWord_ofBytes (by omega), List.drop_drop]

/-- `ABSBLK` on a whole message with a whole block at `BLK` (R92). -/
theorem State.absorbedBlock_of_messageInv {s : State} {d : DigestSize} (h : s.messageInv)
    (hb : s.blk * rateBytes d + rateBytes d ≤ s.mlen) :
    s.absorbedBlock d = some ((s.setLanes (permuteLanes (xorWords s.lanes
      (wordsOf (rateLanes d) (s.msg.bytes.drop (s.blk * rateBytes d)))))).setBlk (s.blk + 1)) := by
  have hl := Memory.length_bytes_of_holds h
  have hr : s.msg.readWords (wordAddress d s.blk 0) (rateLanes d) =
      some (wordsOf (rateLanes d) (s.msg.bytes.drop (s.blk * rateBytes d))) := by
    conv_lhs => rw [Memory.eq_ofBytes_of_holds h]
    rw [Memory.readWords_ofBytes (by rw [wordAddress, hl]; have := rateBytes_eq d; omega)]; rfl
  simp [State.absorbedBlock, hr]

/-- Absorbing the blocks from `BLK` on of a whole message is absorbing its bytes from there on (R92, R120). -/
theorem State.absorbedBlocks_of_messageInv (d : DigestSize) (n : Nat) {s : State} (h : s.messageInv)
    (hb : s.blk * rateBytes d + n * rateBytes d ≤ s.mlen) :
    State.absorbedBlocks d n s = some ((s.setLanes (absorbBytes d n s.lanes (s.msg.bytes.drop (s.blk * rateBytes d)))).setBlk
      (s.blk + n)) := by
  induction n generalizing s with
  | zero => simp [State.absorbedBlocks, absorbBytes]
  | succ n ih =>
    rw [Nat.add_mul, Nat.one_mul] at hb
    rw [State.absorbedBlocks, State.absorbedBlock_of_messageInv h (by omega)]
    refine (ih (s := (s.setLanes (permuteLanes (xorWords s.lanes
      (wordsOf (rateLanes d) (s.msg.bytes.drop (s.blk * rateBytes d)))))).setBlk (s.blk + 1)) h ?_).trans ?_
    · simp only [State.setBlk_blk, State.setBlk_mlen, State.setLanes_mlen, Nat.add_mul, Nat.one_mul]; omega
    · simp only [absorbBytes, State.setBlk, State.setLanes, List.drop_drop, Nat.add_mul, Nat.one_mul]
      congr 2; omega

end Sys2Proof.Machine
end

