-- ==== Sys2Proof/Laws/Lanes.lean ====
section
/-! SUPPORT. Reading lanes back out of the lane array. -/

namespace Sys2Proof.Machine

@[simp] theorem fiveGet_fiveOf {α : Type} (f : Fin 5 → α) (i : Fin 5) : fiveGet (fiveOf f) i = f i := by
  fin_cases i <;> rfl

theorem five_ext {α : Type} {v w : Five α} (h : ∀ i, fiveGet v i = fiveGet w i) : v = w := by
  cases v; cases w
  have h0 := h 0; have h1 := h 1; have h2 := h 2; have h3 := h 3; have h4 := h 4
  simp_all [fiveGet]

@[simp] theorem laneAt_lanesOf (f : Fin 5 → Fin 5 → Lane) (r c : Fin 5) : laneAt (lanesOf f) r c = f r c := by
  simp [laneAt, lanesOf]

/-- Two lane arrays with the same 25 lanes are the same. -/
theorem lanes_ext {a b : LaneArray} (h : ∀ r c, laneAt a r c = laneAt b r c) : a = b :=
  five_ext fun r => five_ext fun c => h r c

@[simp] theorem laneAt_zeroLanes (r c : Fin 5) : laneAt zeroLanes r c = 0 := by simp [zeroLanes]

@[simp] theorem laneAt_setLane (a : LaneArray) (r c r' c' : Fin 5) (v : Lane) :
    laneAt (setLane a r c v) r' c' = if r' = r ∧ c' = c then v else laneAt a r' c' := by
  simp [setLane]

/-- The flat index and the position name each other (R11). -/
@[simp] theorem rowOf_flatIndex (r c : Fin 5) : rowOf (flatIndex r c) = r := by
  fin_cases r <;> fin_cases c <;> rfl

@[simp] theorem colOf_flatIndex (r c : Fin 5) : colOf (flatIndex r c) = c := by
  fin_cases r <;> fin_cases c <;> rfl

theorem flatLane_flatIndex (a : LaneArray) (r c : Fin 5) : flatLane a (flatIndex r c) = laneAt a r c := by
  simp [flatLane]

theorem flatIndex_lt (r c : Fin 5) : flatIndex r c < 25 := by
  simp only [flatIndex]; omega

end Sys2Proof.Machine
end

