-- ==== Sys2Proof/Laws/Ops.lean ====
section
/-! SUPPORT. What each shared operation can answer, said once. -/

namespace Sys2Proof.Machine

variable {s t : State} {k : Host.Outcome State Fault Refusal}

/-- `whenRunning` ignores the command of a halted core, and goes on otherwise. -/
theorem whenRunning_next (h : whenRunning s k = .next t) :
    (s.err ≠ 0 ∧ t = s) ∨ (s.err = 0 ∧ k = .next t) := by
  unfold whenRunning halted at h
  split at h
  · left; simp_all
  · right; simp_all

theorem whenRunning_of_running (h : s.err = 0) : whenRunning s k = k := by
  simp [whenRunning, halted, h]

theorem whenRunning_of_halted (h : s.err ≠ 0) : whenRunning s k = .next s := by
  have hh : halted s = true := by simpa [halted] using h
  simp [whenRunning, hh]

/-- `whenConfigured` raises NotConfigured when `CFG = 0`, and goes on otherwise. -/
theorem whenConfigured_next {i : Instr} (h : whenConfigured i s k = .next t) :
    (s.cfg = false ∧ t = s.faulted .notConfigured (encode i)) ∨ (s.cfg = true ∧ k = .next t) := by
  unfold whenConfigured raise at h
  split at h
  · right; simp_all
  · left; simp_all

theorem whenConfigured_of_cfg {i : Instr} (h : s.cfg = true) : whenConfigured i s k = k := by
  simp [whenConfigured, h]

theorem whenConfigured_of_not_cfg {i : Instr} (h : s.cfg = false) :
    whenConfigured i s k = .next (s.faulted .notConfigured (encode i)) := by
  simp [whenConfigured, raise, h]

/-- `require` raises its fault when its test fails, and goes on otherwise. -/
theorem require_next {ok : Bool} {f : FaultCode} {i : Instr} (h : require ok f i s k = .next t) :
    (ok = false ∧ t = s.faulted f (encode i)) ∨ (ok = true ∧ k = .next t) := by
  unfold require raise at h
  split at h
  · right; simp_all
  · left; simp_all

theorem require_of_true {f : FaultCode} {i : Instr} : require true f i s k = k := rfl

theorem require_of_false {f : FaultCode} {i : Instr} : require false f i s k = .next (s.faulted f (encode i)) := rfl

/-- `withSize` goes on with the digest size `SIZE` names. -/
theorem withSize_next {k : DigestSize → Host.Outcome State Fault Refusal} (h : withSize s k = .next t) :
    ∃ d, sizeOf? s = some d ∧ k d = .next t := by
  unfold withSize at h
  split at h
  · cases h
  · exact ⟨_, ‹_›, h⟩

theorem withSize_of_size {k : DigestSize → Host.Outcome State Fault Refusal} {d : DigestSize} (h : sizeOf? s = some d) :
    withSize s k = k d := by
  simp [withSize, h]

/-- `whenLegalSize` raises IllegalSize for a number that is no digest size, and goes on otherwise. -/
theorem whenLegalSize_next {n : BitVec 16} {i : Instr} {k : DigestSize → Host.Outcome State Fault Refusal}
    (h : whenLegalSize n i s k = .next t) :
    (legalSize? n = none ∧ t = s.faulted .illegalSize (encode i)) ∨ ∃ d, legalSize? n = some d ∧ k d = .next t := by
  unfold whenLegalSize raise at h
  split at h
  · left; simp_all
  · exact Or.inr ⟨_, ‹_›, h⟩

/-- `fromMessage` answers the state it is given, if any. -/
theorem fromMessage_next {o : Option State} (h : fromMessage o = .next t) : o = some t := by
  unfold fromMessage at h
  split at h <;> simp_all

/-- What one host action can do: the four cases of R166. -/
theorem perform_next {act : HostAction} (h : perform act s = .next t) :
    (∃ cmd din, act = .command cmd din ∧ runCommand cmd din s = .next t) ∨
    (∃ r, act = .readStatus r ∧ t = s.addReply (statusReply s r)) ∨
    (∃ k b, act = .readOut k ∧ k < s.olen.toNat ∧ s.out.read k = some b ∧ t = s.addReply (.output k b)) ∨
    (act = .reset ∧ t = s.hostReset) := by
  cases act with
  | command cmd din => exact .inl ⟨cmd, din, rfl, h⟩
  | readStatus r => cases h; exact .inr (.inl ⟨r, rfl, rfl⟩)
  | readOut k =>
    simp only [perform, readOut] at h
    split at h
    · split at h
      · cases h
      · cases h; exact .inr (.inr (.inl ⟨k, _, rfl, ‹_›, ‹_›, rfl⟩))
    · cases h
  | reset => cases h; exact .inr (.inr (.inr ⟨rfl, rfl⟩))

/-- A status read is answered with the register's value, except that of SR1 while `CFG = 0`, which is refused. -/
theorem statusReply_cases (s : State) (r : StatusReg) :
    (∃ v, statusValue s r = some v ∧ statusReply s r = .status r v) ∨
    (r = .size ∧ s.cfg = false ∧ statusReply s r = .statusRefused r) := by
  cases r <;> simp [statusReply, statusValue]
  cases s.cfg <;> simp

/-- A command word is ignored, recorded as illegal, or executed as what it decodes to. -/
theorem runCommand_next {cmd : CmdWord} {din : Lane} (h : runCommand cmd din s = .next t) :
    (s.err ≠ 0 ∧ t = s) ∨
    (s.err = 0 ∧ (∃ e, decode cmd din = .error e) ∧ t = s.faulted .illegalCommand cmd) ∨
    (s.err = 0 ∧ ∃ i, decode cmd din = .ok i ∧ exec i s = .next t) := by
  rcases whenRunning_next h with h | ⟨he, h⟩
  · exact .inl h
  · cases hd : decode cmd din with
    | error e => simp only [hd, raise] at h; cases h; exact .inr (.inl ⟨he, ⟨e, rfl⟩, rfl⟩)
    | ok i => simp only [hd] at h; exact .inr (.inr ⟨he, i, rfl, h⟩)

end Sys2Proof.Machine
end

