-- ==== Sys2Proof/Laws/PerInstr.lean ====
section
/-! SUPPORT. Per instruction: its word matches its row of the opcode map, and the row makes it (30_encoding.md R58). -/

namespace Sys2Proof.Laws.MatchesRow

/-- Some row of R58 matches the command's word, and from that word and `DIN` the row makes the command. -/
def Statement (i : Instr) : Prop :=
  ∃ row ∈ opcodeMap, encode i &&& row.mask = row.pattern ∧ row.make (encode i) (dinOf i) = i

/-- A mask over the upper half keeps the upper half of a word. -/
theorem mask_upper16 (hi lo : BitVec 16) : (hi ++ lo : BitVec 32) &&& 0xFFFF0000#32 = hi ++ 0#16 := by
  apply BitVec.eq_of_getLsbD_eq
  intro i hlt
  rw [BitVec.getLsbD_and, BitVec.getLsbD_append, BitVec.getLsbD_append]
  interval_cases i <;> simp

/-- A mask over the upper 24 bits keeps them. -/
theorem mask_upper24 (hi : BitVec 24) (lo : BitVec 8) : (hi ++ lo : BitVec 32) &&& 0xFFFFFF00#32 = hi ++ 0#8 := by
  apply BitVec.eq_of_getLsbD_eq
  intro i hlt
  rw [BitVec.getLsbD_and, BitVec.getLsbD_append, BitVec.getLsbD_append]
  interval_cases i <;> simp

theorem theta : Statement .theta := ⟨⟨0x01, 0xFFFFFFFF, 0x01000000, fun _ _ => .theta⟩, by simp [opcodeMap], by decide, rfl⟩
theorem rhopi : Statement .rhopi := ⟨⟨0x02, 0xFFFFFFFF, 0x02000000, fun _ _ => .rhopi⟩, by simp [opcodeMap], by decide, rfl⟩
theorem chi : Statement .chi := ⟨⟨0x03, 0xFFFFFFFF, 0x03000000, fun _ _ => .chi⟩, by simp [opcodeMap], by decide, rfl⟩
theorem iota (rnd : BitVec 5) : Statement (.iota rnd) := by
  refine ⟨⟨0x04, 0xFFFFFFE0, 0x04000000, fun w _ => .iota (rndField w)⟩, by simp [opcodeMap], ?_⟩
  revert rnd; decide
theorem round (rnd : BitVec 5) : Statement (.round rnd) := by
  refine ⟨⟨0x05, 0xFFFFFFE0, 0x05000000, fun w _ => .round (rndField w)⟩, by simp [opcodeMap], ?_⟩
  revert rnd; decide
theorem permute : Statement .permute := ⟨⟨0x06, 0xFFFFFFFF, 0x06000000, fun _ _ => .permute⟩, by simp [opcodeMap], by decide, rfl⟩
theorem init (size : BitVec 16) : Statement (.init size) := by
  refine ⟨⟨0x10, 0xFFFF0000, 0x10000000, fun w _ => .init (imm16Field w)⟩, by simp [opcodeMap], ?_, ?_⟩
  · exact (mask_upper16 (0x10#8 ++ 0#8) size).trans rfl
  · exact congrArg Instr.init BitVec.extractLsb'_append_eq_right
theorem absorb (idx : BitVec 5) (din : Lane) : Statement (.absorb idx din) := by
  refine ⟨⟨0x11, 0xFFFFFFE0, 0x11000000, fun w din => .absorb (idxField w) din⟩, by simp [opcodeMap], ?_⟩
  have h : ∀ x : BitVec 5, encode (.absorb x 0) &&& 0xFFFFFFE0 = 0x11000000 ∧ idxField (encode (.absorb x 0)) = x := by decide
  exact ⟨(h idx).1, congrArg (fun x => Instr.absorb x din) (h idx).2⟩
theorem absblk : Statement .absblk := ⟨⟨0x12, 0xFFFFFFFF, 0x12000000, fun _ _ => .absblk⟩, by simp [opcodeMap], by decide, rfl⟩
theorem squeeze (len : BitVec 16) : Statement (.squeeze len) := by
  refine ⟨⟨0x13, 0xFFFF0000, 0x13000000, fun w _ => .squeeze (imm16Field w)⟩, by simp [opcodeMap], ?_, ?_⟩
  · exact (mask_upper16 (0x13#8 ++ 0#8) len).trans rfl
  · exact congrArg Instr.squeeze BitVec.extractLsb'_append_eq_right
theorem mclr : Statement .mclr := ⟨⟨0x20, 0xFFFFFFFF, 0x20000000, fun _ _ => .mclr⟩, by simp [opcodeMap], by decide, rfl⟩
theorem push (byte : Byte) : Statement (.push byte) := by
  refine ⟨⟨0x21, 0xFFFFFF00, 0x21000000, fun w _ => .push (byteField w)⟩, by simp [opcodeMap], ?_, ?_⟩
  · exact (mask_upper24 (0x21#8 ++ 0#16) byte).trans rfl
  · exact congrArg Instr.push BitVec.extractLsb'_append_eq_right
theorem pad : Statement .pad := ⟨⟨0x22, 0xFFFFFFFF, 0x22000000, fun _ _ => .pad⟩, by simp [opcodeMap], by decide, rfl⟩
theorem hash (size : BitVec 16) : Statement (.hash size) := by
  refine ⟨⟨0x30, 0xFFFF0000, 0x30000000, fun w _ => .hash (imm16Field w)⟩, by simp [opcodeMap], ?_, ?_⟩
  · exact (mask_upper16 (0x30#8 ++ 0#8) size).trans rfl
  · exact congrArg Instr.hash BitVec.extractLsb'_append_eq_right

end Sys2Proof.Laws.MatchesRow
end

