-- ==== Sys2Proof/Laws/Sponge.lean ====
section
/-! SUPPORT. What the extraction of lanes and the squeeze loop give (41_sponge.md R93). -/

namespace Sys2Proof.Machine

@[simp] theorem length_bytesLe64 (v : Lane) : (bytesLe64 v).length = 8 := by simp [bytesLe64]

theorem getElem?_bytesLe64 (v : Lane) {j : Nat} (h : j < 8) : (bytesLe64 v)[j]? = some (v.extractLsb' (8 * j) 8) := by
  simp [bytesLe64, h]

theorem laneBytes_succ (a : LaneArray) (n : Nat) : laneBytes a (n + 1) = laneBytes a n ++ bytesLe64 (flatLane a n) := by
  simp [laneBytes, List.range_succ, List.flatMap_append]

@[simp] theorem length_laneBytes (a : LaneArray) (n : Nat) : (laneBytes a n).length = 8 * n := by
  induction n with
  | zero => rfl
  | succ n ih => rw [laneBytes_succ, List.length_append, ih, length_bytesLe64]; omega

/-- Byte `k` of the first `n` lanes is byte `k mod 8` of lane `k div 8` (R35). -/
theorem getElem?_laneBytes (a : LaneArray) (n : Nat) {k : Nat} (h : k < 8 * n) :
    (laneBytes a n)[k]? = some ((flatLane a (k / 8)).extractLsb' (8 * (k % 8)) 8) := by
  induction n with
  | zero => omega
  | succ n ih =>
    rw [laneBytes_succ]
    by_cases hk : k < 8 * n
    · rw [List.getElem?_append_left (by simpa using hk), ih hk]
    · rw [List.getElem?_append_right (by simp; omega), length_laneBytes, getElem?_bytesLe64 _ (by omega)]
      have h1 : k / 8 = n := by omega
      have h2 : k - 8 * n = k % 8 := by omega
      rw [h1, h2]

/-- The bytes of `t` extractions, each followed by the permutation (R93). -/
def extractions (d : DigestSize) : Nat → LaneArray → List Byte
  | 0, _ => []
  | t + 1, a => laneBytes a (rateLanes d) ++ extractions d t (permuteLanes a)

@[simp] theorem length_extractions (d : DigestSize) (t : Nat) (a : LaneArray) : (extractions d t a).length = t * rateBytes d := by
  induction t generalizing a with
  | zero => simp [extractions]
  | succ t ih => simp only [extractions, List.length_append, length_laneBytes, ih, Nat.add_mul, ← rateBytes_eq]; omega

/-- Byte `k` comes from the lanes after `k div rate_bytes` permutations (R93, R94). -/
theorem getElem?_extractions (d : DigestSize) (t : Nat) (a : LaneArray) {k : Nat} (h : k < t * rateBytes d) :
    (extractions d t a)[k]? =
      some ((flatLane (permuteLanes^[k / rateBytes d] a) (k % rateBytes d / 8)).extractLsb' (8 * (k % 8)) 8) := by
  have hp := rateBytes_pos d
  have he := rateBytes_eq d
  induction t generalizing a k with
  | zero => omega
  | succ t ih =>
    rw [Nat.add_mul, Nat.one_mul] at h
    rw [extractions]
    by_cases hk : k < rateBytes d
    · rw [List.getElem?_append_left (by simp; omega), getElem?_laneBytes _ _ (by omega), Nat.div_eq_of_lt hk, Nat.mod_eq_of_lt hk]; rfl
    · have h8 : (k - rateBytes d) % 8 = k % 8 := by omega
      rw [List.getElem?_append_right (by simp; omega), length_laneBytes, ← he, ih _ (by omega), Nat.div_eq_sub_div hp (by omega : rateBytes d ≤ k),
        Nat.mod_eq_sub_mod (by omega : rateBytes d ≤ k), h8]
      rfl

/-- How many turns of the loop a request takes: `ceil(need / rate_bytes)` (R93). -/
def squeezeTurns (d : DigestSize) (need : Nat) : Nat := (need + rateBytes d - 1) / rateBytes d

/-- The loop of R93, started with `buf`, ends after the fewest turns that bring the buffer to `need` bytes. -/
theorem squeezeLoop_eq (d : DigestSize) (need turns t : Nat) (a : LaneArray) (buf : List Byte) (ht : t < turns)
    (hlow : ∀ j, j ≤ t → buf.length + j * rateBytes d < need) (hup : need ≤ buf.length + (t + 1) * rateBytes d) :
    squeezeLoop d need turns a buf = (permuteLanes^[t + 1] a, buf ++ extractions d (t + 1) a) := by
  have he := rateBytes_eq d
  induction turns generalizing t a buf with
  | zero => omega
  | succ turns ih =>
    rw [squeezeLoop]
    cases t with
    | zero =>
      rw [if_pos (by simp only [List.length_append, length_laneBytes]; omega)]
      simp [extractions]
    | succ t =>
      have h1 := hlow 1 (by omega)
      rw [if_neg (by simp only [List.length_append, length_laneBytes]; omega)]
      refine (ih t _ _ (by omega) (fun j hj => ?_) ?_).trans ?_
      · have := hlow (j + 1) (by omega)
        simp only [List.length_append, length_laneBytes, Nat.add_mul, Nat.one_mul] at this ⊢; omega
      · simp only [List.length_append, length_laneBytes, Nat.add_mul, Nat.one_mul] at hup ⊢; omega
      · rw [extractions, List.append_assoc]; rfl

/-- What the loop of R93 gives for a request of at least one byte. -/
theorem squeezeLoop_need (d : DigestSize) {need : Nat} (h : 0 < need) (a : LaneArray) :
    squeezeLoop d need need a [] = (permuteLanes^[squeezeTurns d need] a, extractions d (squeezeTurns d need) a) := by
  have hp := rateBytes_ge d
  obtain ⟨t, ht⟩ : ∃ t, squeezeTurns d need = t + 1 :=
    Nat.exists_eq_succ_of_ne_zero (by unfold squeezeTurns; exact (Nat.div_pos (by omega) (by omega)).ne')
  have hup : need ≤ (t + 1) * rateBytes d := by
    have h1 := Nat.div_add_mod (need + rateBytes d - 1) (rateBytes d)
    have h2 := Nat.mod_lt (need + rateBytes d - 1) (rateBytes_pos d)
    unfold squeezeTurns at ht
    rw [ht, Nat.mul_comm] at h1; omega
  have hlow : t * rateBytes d < need := by
    have h1 := Nat.div_mul_le_self (need + rateBytes d - 1) (rateBytes d)
    unfold squeezeTurns at ht
    rw [ht, Nat.add_mul, Nat.one_mul] at h1; omega
  have htn : t < need := lt_of_le_of_lt (Nat.le_mul_of_pos_right t (rateBytes_pos d)) hlow
  rw [ht, squeezeLoop_eq d need need t a [] htn (fun j hj => ?_) (by simpa using hup)]
  · simp
  · have := Nat.mul_le_mul_right (rateBytes d) hj
    simp; omega

/-- What `SQUEEZE` leaves for a request of at least one byte (R93). -/
theorem State.squeezed_eq (s : State) (d : DigestSize) {need : Nat} (h : 0 < need) :
    s.squeezed d need = (s.setLanes (permuteLanes^[squeezeTurns d need] s.lanes)).setOut
      (Memory.ofBytes ((extractions d (squeezeTurns d need) s.lanes).take need)) (BitVec.ofNat 13 need) := by
  rw [State.squeezed, squeezeLoop_need d h]

theorem le_squeezeTurns_mul (d : DigestSize) (need : Nat) : need ≤ squeezeTurns d need * rateBytes d := by
  have h1 := Nat.div_add_mod (need + rateBytes d - 1) (rateBytes d)
  have h2 := Nat.mod_lt (need + rateBytes d - 1) (rateBytes_pos d)
  have h3 := rateBytes_pos d
  rw [squeezeTurns, Nat.mul_comm]; omega

/-- A request of at most one block takes one turn. -/
theorem squeezeTurns_of_le (d : DigestSize) {need : Nat} (h : 0 < need) (hle : need ≤ rateBytes d) : squeezeTurns d need = 1 := by
  have hp := rateBytes_pos d
  rw [squeezeTurns, Nat.div_eq_iff hp]; omega

end Sys2Proof.Machine
end

