-- ==== Sys2Proof/Tests/Slice0.lean ====
section
/-! SUPPORT. The model's own tests. Expected values are those of 95_test_vectors.md, 30_encoding.md and 42_padding.md, named at each test. -/

namespace Sys2Proof.Tests

-- The digest tests keep the kernel busy for seconds each: one theorem at a time, or the threads that wait fill the memory limit.
set_option Elab.async false

open Sys2Proof Sys2Proof.Machine

/-! Small states the tests and the witnesses start from. -/

/-- A core right after `INIT size` from reset (R90). -/
def ready (d : DigestSize) : State := { State.reset with lanes := zeroLanes, size := sizeWord d, cfg := true }

/-- The same with `MSG` holding `n` bytes 0x61. -/
def loaded (d : DigestSize) (n : Nat) : State := (ready d).setMsg (Memory.ofBytes (List.replicate n 0x61)) n

/-- The same with a buffer of capacity `cap`. -/
def loadedCap (d : DigestSize) (n cap : Nat) : State := { loaded d n with config := ⟨some cap⟩ }

/-- A core that `IOTA 24` has halted (V62). -/
def stuck : State := (ready .s256).setErr 4 0x04000018

/-- The "ramp state" of 95_test_vectors.md: `lane(i) = i + 1`. -/
def ramp : LaneArray := lanesOf fun r c => BitVec.ofNat 64 (flatIndex r c + 1)

/-- The state `E256` of V25. -/
def e256 : LaneArray :=
  ⟨⟨0x66D71EBFF8C6FFA7, 0x62D661A05647C151, 0xFA493BE44DFF80F5, 0x4A43F8804B0AD882, 0xE2F36B34B7BE6652⟩,
     ⟨0xFF875921CACC9566, 0x80D97B5776B3BA89, 0x28DEBD55FC6A313B, 0x03AC3D19F1E48ECC, 0x78193AECC1E434E9⟩,
     ⟨0xC287A923AFE81E79, 0x21684AE301601F33, 0x282E7E469E09E75F, 0xD17D1ED2C282B6B8, 0xF050E0D2ADAF434E⟩,
     ⟨0x5375F6FB6AA989B0, 0xC2C6B96032FAF11E, 0x63684DD3F055A1B2, 0xD908398B988EC2B2, 0x913F10903E0BD326⟩,
     ⟨0x33FC34664D479817, 0x2B715C1A078FDE58, 0x140B7C9251369779, 0x857343A7AABDEB5E, 0x92136E0EFB7B70E5⟩⟩

/-- The next state of an outcome, if it is one. -/
def next? (o : Host.Outcome State Fault Refusal) : Option State :=
  match o with
  | .next t => some t
  | .fault _ => none
  | .refused _ => none

/-- A byte sequence read as one number, first byte most significant, to compare with digests in hexadecimal. -/
def bigEndian (bs : List Byte) : Nat := bs.foldl (fun acc b => acc * 256 + b.toNat) 0

/-- `OUT` after an outcome, as a number. -/
def outputOf (o : Host.Outcome State Fault Refusal) : Option Nat := (next? o).map fun t => bigEndian t.out.bytes

/-- `ERR` and `ERRCMD` after an outcome. -/
def faultOf (o : Host.Outcome State Fault Refusal) : Option (Nat × Nat) :=
  (next? o).map fun t => (t.err.toNat, t.errcmd.toNat)

/-! WellFormed: for each check an operand it refuses, and the last one it accepts (R53 to R55). -/

theorem test_wellFormed_round : (Instr.iota 24).wellFormed = false ∧ (Instr.iota 23).wellFormed = true ∧
    (Instr.round 24).wellFormed = false ∧ (Instr.round 23).wellFormed = true := by decide
theorem test_wellFormed_size : (Instr.init 255).wellFormed = false ∧ (Instr.init 256).wellFormed = true ∧
    (Instr.hash 1088).wellFormed = false ∧ (Instr.hash 224).wellFormed = true := by decide
theorem test_wellFormed_lane : (Instr.absorb 18 0).wellFormed = false ∧ (Instr.absorb 17 0).wellFormed = true := by decide
theorem test_wellFormed_length : (Instr.squeeze 7).wellFormed = false ∧ (Instr.squeeze 8).wellFormed = true := by decide

/-! Decoding: a word of each command, written out from the bit patterns of R52 to R58. -/

theorem test_decode_theta : decode 0b00000001000000000000000000000000 0 = .ok .theta := by decide
theorem test_decode_rhopi : decode 0b00000010000000000000000000000000 0 = .ok .rhopi := by decide
theorem test_decode_chi : decode 0b00000011000000000000000000000000 0 = .ok .chi := by decide
theorem test_decode_iota : decode 0b00000100000000000000000000010001 0 = .ok (.iota 17) := by decide
theorem test_decode_round : decode 0b00000101000000000000000000011111 0 = .ok (.round 31) := by decide
theorem test_decode_permute : decode 0b00000110000000000000000000000000 0 = .ok .permute := by decide
theorem test_decode_init : decode 0b00010000000000001000000000000001 0 = .ok (.init 32769) := by decide
theorem test_decode_absorb : decode 0b00010001000000000000000000010000 5 = .ok (.absorb 16 5) := by decide
theorem test_decode_absblk : decode 0b00010010000000000000000000000000 0 = .ok .absblk := by decide
theorem test_decode_squeeze : decode 0b00010011000000001111111111111111 0 = .ok (.squeeze 65535) := by decide
theorem test_decode_mclr : decode 0b00100000000000000000000000000000 0 = .ok .mclr := by decide
theorem test_decode_push : decode 0b00100001000000000000000010000001 0 = .ok (.push 0x81) := by decide
theorem test_decode_pad : decode 0b00100010000000000000000000000000 0 = .ok .pad := by decide
theorem test_decode_hash : decode 0b00110000000000000000000110000000 0 = .ok (.hash 384) := by decide

/-- R60, V61, V75, V76, V77: the all-zeros and all-ones words, an unassigned opcode, and a reserved bit in each format. -/
theorem test_decode_illegal :
    decode 0x00000000 0 = .error .unassignedOpcode ∧ decode 0xFFFFFFFF 0 = .error .unassignedOpcode ∧
    decode 0x07000000 0 = .error .unassignedOpcode ∧ decode 0x01000001 0 = .error .reservedBit ∧
    decode 0x04000038 0 = .error .reservedBit ∧ decode 0x11000020 0 = .error .reservedBit ∧
    decode 0x10010100 0 = .error .reservedBit ∧ decode 0x21000100 0 = .error .reservedBit := by decide

/-- The operand word `DIN` stands above the command word in the table's numbering, and is 0 where the table gives it no bits. -/
theorem test_table_word : decodeTableWord 32 0x11000010 = some (.absorb 16 0) ∧
    decodeTableWord 96 (0x11000010 + 7 * 2 ^ 32) = some (.absorb 16 7) ∧ decodeTableWord 32 0x21000100 = none := by decide

/-- R62: assembler text. -/
theorem test_assembly : (Instr.iota 3).assembly = "IOTA 3" ∧ (Instr.absorb 16 1).assembly = "ABSORB 16, 1" := by decide +kernel

/-! Parameters and tables. -/

/-- 42_padding.md, table of R113: what padding appends at the boundary lengths of size 512 (`rb = 72`). -/
theorem test_pad_bytes : padBytes (padCount .s512 70) = [0x06, 0x80] ∧ padBytes (padCount .s512 71) = [0x86] ∧
    padBytes (padCount .s512 72) = 0x06 :: (List.replicate 70 0 ++ [0x80]) := by decide

/-- R72: the corners of the table `OFF`. -/
theorem test_offset_corners : rotOffset 0 4 = 27 ∧ rotOffset 4 0 = 18 ∧ rotOffset 2 3 = 25 := by decide

/-! One step of each command. -/

/-- V1, V2: parity diffusion, and the rotation wrapping bit 63 to bit 0. -/
theorem test_theta_wraps : thetaLanes (setLane zeroLanes 2 3 0x8000000000000000) =
    lanesOf fun r c => if c = 2 then 1 else if c = 4 then 0x8000000000000000
      else if r = 2 ∧ c = 3 then 0x8000000000000000 else 0 := by decide +kernel

/-- V3. -/
theorem test_theta_ramp : thetaLanes ramp =
    ⟨⟨0x0000000000000010, 0x000000000000000D, 0x000000000000001D, 0x000000000000001D, 0x000000000000001F⟩,
     ⟨0x0000000000000017, 0x0000000000000008, 0x0000000000000016, 0x0000000000000010, 0x0000000000000010⟩,
     ⟨0x000000000000001A, 0x0000000000000003, 0x0000000000000013, 0x0000000000000017, 0x0000000000000015⟩,
     ⟨0x0000000000000001, 0x000000000000001E, 0x000000000000000C, 0x000000000000000A, 0x000000000000000E⟩,
     ⟨0x0000000000000004, 0x0000000000000019, 0x0000000000000009, 0x0000000000000001, 0x0000000000000003⟩⟩ := by decide +kernel

/-- V6. -/
theorem test_rhopi_ramp : rhoPiLanes ramp =
    ⟨⟨0x0000000000000001, 0x0000700000000000, 0x0000680000000000, 0x0000000002600000, 0x0000000000064000⟩,
     ⟨0x0000000040000000, 0x0000000000A00000, 0x0000000000000058, 0x0002200000000000, 0xE000000000000002⟩,
     ⟨0x0000000000000004, 0x0000000000000200, 0x000000001C000000, 0x0000000000001400, 0x0000000000540000⟩,
     ⟨0x0000000028000000, 0x0000006000000000, 0x0000000000003000, 0x0000000000090000, 0x1800000000000000⟩,
     ⟨0xC000000000000000, 0x0480000000000000, 0x0000078000000000, 0x0000200000000000, 0x0000000000000058⟩⟩ := by decide +kernel

/-- V8. -/
theorem test_chi_ramp : chiLanes ramp =
    ⟨⟨0x0000000000000000, 0x0000000000000006, 0x0000000000000002, 0x0000000000000004, 0x0000000000000007⟩,
     ⟨0x000000000000000E, 0x0000000000000006, 0x000000000000000A, 0x000000000000000D, 0x000000000000000B⟩,
     ⟨0x000000000000000A, 0x000000000000000E, 0x000000000000000C, 0x000000000000000E, 0x000000000000000B⟩,
     ⟨0x0000000000000012, 0x0000000000000010, 0x0000000000000016, 0x0000000000000013, 0x0000000000000015⟩,
     ⟨0x0000000000000014, 0x000000000000001E, 0x0000000000000016, 0x000000000000001C, 0x000000000000001B⟩⟩ := by decide +kernel

/-- V9: the complement is of the next lane alone, and columns wrap. -/
theorem test_chi_row : chiLanes ⟨⟨0xFFFFFFFFFFFFFFFF, 0, 0xFFFFFFFFFFFFFFFF, 0, 0xAAAAAAAAAAAAAAAA⟩, zeroLanes.e1, zeroLanes.e2,
    zeroLanes.e3, zeroLanes.e4⟩ = ⟨⟨0, 0, 0x5555555555555555, 0x5555555555555555, 0xAAAAAAAAAAAAAAAA⟩, zeroLanes.e1, zeroLanes.e2,
    zeroLanes.e3, zeroLanes.e4⟩ := by decide +kernel

/-- V11, V62. -/
theorem test_iota : laneAt (iotaLanes 23 ramp) 0 0 = 0x8000000080008009 ∧
    faultOf (exec (.iota 24) (ready .s256)) = some (4, 0x04000018) := by decide +kernel

/-- V15. -/
theorem test_round_ramp : (next? (exec (.round 0) ((ready .s256).setLanes ramp))).map (·.lanes) = some
    ⟨⟨0x0000180000000011, 0x0000800001400000, 0x000098000000C000, 0x0000000001400010, 0x000080000000C000⟩,
     ⟨0x00000001D00000D0, 0x0003C00001000000, 0x20000000000000D1, 0x0003C001D0000000, 0x2000000001000001⟩,
     ⟨0x000000002E00001A, 0x0000000000000B80, 0x000000002E100000, 0x0000000000000E1A, 0x0000000000100580⟩,
     ⟨0x00000000F8000C00, 0x0000017000060000, 0x0100000000000C00, 0x00000000F8060000, 0x0100017000000000⟩,
     ⟨0x40000A8000000007, 0x0800000000000000, 0x00000A8000000064, 0x4000020000000003, 0x0800000000000064⟩⟩ := by decide +kernel

/-- V63. -/
theorem test_round_illegal : faultOf (exec (.round 31) (ready .s256)) = some (4, 0x0500001F) := by decide +kernel

/-- V17. -/
theorem test_permute_zero : (next? (exec .permute (ready .s256))).map (·.lanes) = some
    ⟨⟨0xF1258F7940E1DDE7, 0x84D5CCF933C0478A, 0xD598261EA65AA9EE, 0xBD1547306F80494D, 0x8B284E056253D057⟩,
     ⟨0xFF97A42D7F8E6FD4, 0x90FEE5A0A44647C4, 0x8C5BDA0CD6192E76, 0xAD30A6F71B19059C, 0x30935AB7D08FFC64⟩,
     ⟨0xEB5AA93F2317D635, 0xA9A6E6260D712103, 0x81A57C16DBCF555F, 0x43B831CD0347C826, 0x01F22F1A11A5569F⟩,
     ⟨0x05E5635A21D9AE61, 0x64BEFEF28CC970F2, 0x613670957BC46611, 0xB87C5A554FD00ECB, 0x8C3EE88A1CCF32C8⟩,
     ⟨0x940C7922AE3A2614, 0x1841F924A2C509E4, 0x16F53526E70465C2, 0x75F644E97F30A13B, 0xEAF1FF7B5CECA249⟩⟩ := by decide +kernel

/-- V60: from reset. -/
theorem test_permute_unconfigured : faultOf (exec .permute State.reset) = some (2, 0x06000000) := by decide +kernel

/-- V21, V64, V65. -/
theorem test_init : (next? (exec (.init 384) State.reset)).map (fun t => (t.cfg, t.size, t.lanes)) = some (true, 384, zeroLanes) ∧
    faultOf (exec (.init 255) State.reset) = some (3, 0x100000FF) ∧
    (next? (exec (.init 1088) (ready .s256))).map (·.size) = some 256 := by decide +kernel

/-- V22: `INIT` leaves `MSG` and drops `OUT`. -/
theorem test_init_keeps_message : (next? (exec (.init 512) ((loaded .s256 3).setOut (Memory.ofBytes [1, 2]) 2))).map
    (fun t => (t.mlen, t.msg.bytes, t.olen, t.out)) = some (3, [0x61, 0x61, 0x61], 0, []) := by decide +kernel

/-- V24 for size 224: lane 17 is `A[3][2]`; lane 18 faults. -/
theorem test_absorb : (next? (exec (.absorb 17 0xDEADBEEF) (ready .s224))).map (fun t => laneAt t.lanes 3 2) = some 0xDEADBEEF ∧
    faultOf (exec (.absorb 18 1) (ready .s224)) = some (5, 0x11000012) := by decide +kernel

/-- V59: NotConfigured comes before IllegalLaneIndex. -/
theorem test_absorb_unconfigured : faultOf (exec (.absorb 31 5) State.reset) = some (2, 0x1100001F) := by decide +kernel

/-- V25: the padded empty message of size 256. -/
theorem test_absblk : (next? (exec .absblk ((ready .s256).padded .s256))).map (fun t => (t.lanes, t.blk)) = some (e256, 1) := by
  decide +kernel

/-- V68: 71 bytes are no whole block of size 512. -/
theorem test_absblk_underrun : faultOf (exec .absblk (loaded .s512 71)) = some (7, 0x12000000) := by decide +kernel

/-- V30: one byte more than a block takes a second extraction, of the permuted lanes. -/
theorem test_squeeze_two_blocks : (next? (exec (.squeeze 1096) ((ready .s256).setLanes e256))).map
    (fun t => (t.olen.toNat, t.out.read 0, t.out.read 136, laneAt t.lanes 0 0)) =
    some (137, some 0xa7, some 0xe8, 0xF5DEF481378A2E78) := by decide +kernel

/-- V28, V66: a ragged length is cut down to whole bytes, and fewer than 8 bits fault. -/
theorem test_squeeze_short : (next? (exec (.squeeze 15) ((ready .s256).setLanes e256))).map (fun t => t.out.bytes) = some [0xa7] ∧
    faultOf (exec (.squeeze 7) (ready .s256)) = some (6, 0x13000007) := by decide +kernel

/-- V41. -/
theorem test_mclr : (next? (exec .mclr ((loaded .s256 2).setBlk 1))).map (fun t => (t.msg, t.mlen, t.blk, t.cfg)) =
    some ([], 0, 0, true) := by decide +kernel

/-- V40. -/
theorem test_push : (next? (execAll [.push 0x61, .push 0x00, .push 0xFF, .push 0x86] State.reset)).map (fun t => (t.msg.bytes, t.mlen)) =
    some ([0x61, 0x00, 0xFF, 0x86], 4) := by decide +kernel

/-- V70: a full buffer of 144 bytes. -/
theorem test_push_overflow : faultOf (exec (.push 0x02) (loadedCap .s256 144 144)) = some (8, 0x21000002) := by decide +kernel

/-- R112's example: 5 bytes at size 256. -/
theorem test_pad : (next? (exec .pad (loaded .s256 5))).map (fun t => (t.mlen, t.msg.read 5, t.msg.read 134, t.msg.read 135)) =
    some (136, some 0x06, some 0x00, some 0x80) := by decide +kernel

/-- V73: the padded length 216 exceeds 144. -/
theorem test_pad_overflow : faultOf (exec .pad (loadedCap .s512 144 144)) = some (8, 0x22000000) := by decide +kernel

/-- S2: SHA3-256 of the empty message. -/
theorem test_hash_empty : outputOf (exec (.hash 256) State.reset) =
    some 0xa7ffc6f8bf1ed76651c14756a061d662f580ff4de43b49fa82d80a4b80f8434a := by decide +kernel

/-- V36: the message that tells the two readings of the padding condition apart (conflict C2). -/
theorem test_hash_v36 : outputOf (exec (.hash 512) (loaded .s512 143)) =
    some 0x1dfc536c0ef79e004ec6f18e3b24fd6c4c3076556424ef369e8734312d6594ff9b92a8f02d2980ab51c191a9cc3cf47d06265e81d306d4098cdf2b6bada1db27 := by
  decide +kernel

/-- S5: the digest function of the claims, on "abcde" (R64). -/
theorem test_sha3_abcde : bigEndian (sha3 .s256 (utf8Bytes "abcde")) =
    0xd716ec61e18904a8f58679b71cb065d4d5db72e0e0c3f155a4feff7add0e58eb := by decide +kernel

/-- R122 on the first bytes of S2. -/
theorem test_hex : hex [0xa7, 0xff, 0xc6, 0x08] = "a7ffc608" := by decide +kernel

/-! Steps of the host. -/

/-- The host's interface: from reset the very next step runs the command; the THETA word faults as V60 says, `INIT 256` configures. -/
theorem test_first_step : faultOf (step (State.reset.withFetchWord 32 0x01000000)) = some (2, 0x01000000) ∧
    (next? (step (State.reset.withFetchWord 32 0x10000100))).map (fun t => (t.cfg, t.size, t.input)) = some (true, 256, []) := by
  decide +kernel

/-- V74: IllegalSize comes before BufferOverflow; V61: IllegalCommand comes before IllegalRound. -/
theorem test_priority : faultOf (exec (.hash 100) (loadedCap .s256 144 144)) = some (3, 0x30000064) ∧
    faultOf (step ((ready .s256).withFetchWord 32 0x04000038)) = some (1, 0x04000038) := by decide +kernel

/-- V78: a halted core ignores even an illegal word. -/
theorem test_halted : faultOf (step (stuck.withFetchWord 32 0x00000000)) = some (4, 0x04000018) := by decide +kernel

/-- R20: SR0 of a core halted by code 4 with `CFG = 1` reads 9. -/
theorem test_status : statusValue stuck .status = some 9 := by decide

/-- R20, R161, U4: right after reset, and halted by NotConfigured too, a read of SR1 is refused, and the core stays as it is. -/
theorem test_status_unwritten_size :
    (next? (step (State.reset.setInput [.readStatus .size]))).map (fun t => (t.replies, t.cfg, t.err)) =
      some ([.statusRefused .size], false, 0) ∧
    (next? (step ((State.reset.setErr 2 0x06000000).setInput [.readStatus .size]))).map (fun t => (t.replies, t.cfg, t.err)) =
      some ([.statusRefused .size], false, 2) := by decide +kernel

/-- P5: reset clears the fault and the configuration. -/
theorem test_reset_action : (next? (step (stuck.setInput [.reset]))).map (fun t => (t.err, t.errcmd, t.cfg, t.mlen)) =
    some (0, 0, false, 0) := by decide +kernel

/-! Witnesses: for each statement with hypotheses, concrete data that meet them, one for each clause, at its boundary. -/

/-- `s` with one action waiting. -/
def asked (s : State) (act : HostAction) : State := s.setInput [act]

/-- An outcome whose next state passes a check is a next state that passes it. -/
theorem next_of_check {o : Host.Outcome State Fault Refusal} {check : State → Bool} (h : (next? o).any check = true) :
    ∃ t, o = .next t ∧ check t = true := by
  cases o with
  | next t => exact ⟨t, rfl, by simpa [next?] using h⟩
  | fault f => simp [next?] at h
  | refused r => simp [next?] at h

theorem witness_EncodeOfDecodeIsTheWord :
    decode 0x04000017 0 = .ok (.iota 23) ∧ decode 0x11000010 9 = .ok (.absorb 16 9) := by decide

theorem witness_WordsMatchingNoRowRaiseIllegalCommand :
    (asked (ready .s256) (.command 0x04000038 0)).err = 0 ∧
    (asked (ready .s256) (.command 0x04000038 0)).input = .command 0x04000038 0 :: [] ∧
    ∀ row ∈ specRows, (0x04000038 : CmdWord) &&& row.1 ≠ row.2 :=
  ⟨by decide, by decide, by simp [specRows]⟩

theorem witness_AtMostOneRowMatchesAWord : ∃ row ∈ opcodeMap, (0x1100001F : CmdWord) &&& row.mask = row.pattern ∧
    row.make 0x1100001F 9 = .absorb 31 9 :=
  ⟨⟨0x11, 0xFFFFFFE0, 0x11000000, fun w din => .absorb (idxField w) din⟩, by simp [opcodeMap], by decide, by decide⟩

theorem witness_OnlyAbsorbReadsDin : opField 0x10000100 ≠ 0x11 ∧ opField 0x12000000 ≠ 0x11 := by decide

theorem witness_StepRunsTheDecodedCommand :
    (asked (ready .s256) (.command 0x11000010 9)).err = 0 ∧
    (asked (ready .s256) (.command 0x11000010 9)).input = .command 0x11000010 9 :: [] ∧
    decode 0x11000010 9 = .ok (.absorb 16 9) := by decide

theorem witness_IdleCoreStaysAsItIs : State.reset.input = [] := rfl

theorem witness_HaltedCoreIgnoresEveryWord :
    stuck.err ≠ 0 ∧ (asked stuck (.command 0 0)).err ≠ 0 ∧ (asked stuck .reset).err ≠ 0 ∧
    (asked stuck (.readStatus .size)).err ≠ 0 ∧ statusValue (asked stuck (.readStatus .size)) .size = some 256 ∧
    (asked (stuck.setOut [(0, 7)] 1) (.readOut 0)).err ≠ 0 ∧ 0 < (stuck.setOut [(0, 7)] 1).olen.toNat ∧
    (stuck.setOut [(0, 7)] 1).out.read 0 = some 7 := by decide

theorem witness_OnlyResetClearsErr :
    (asked stuck .reset).err ≠ 0 ∧ ∃ t, step (asked stuck .reset) = .next t ∧ t.err ≠ (asked stuck .reset).err :=
  ⟨by decide, _, rfl, by decide⟩

theorem witness_FaultWritesErrAndErrcmdOnly :
    (asked (ready .s256) (.command 0x04000018 0)).err = 0 ∧
    ∃ t, step (asked (ready .s256) (.command 0x04000018 0)) = .next t ∧ t.err ≠ 0 :=
  ⟨by decide, _, rfl, by decide⟩

theorem witness_CommandsFaultExactlyAsTabled :
    (asked (ready .s256) (.command 0x04000018 0)).inv ∧ tabledFault (.iota 24) (ready .s256) = some 4 ∧
    tabledFault (.iota 23) (ready .s256) = none ∧ decode 0x04000018 0 = .ok (.iota 24) ∧ decode 0x04000017 0 = .ok (.iota 23) ∧
    decode 0x04000038 0 = .error .reservedBit ∧ (asked stuck (.command 0x04000018 0)).inv ∧ stuck.err ≠ 0 := by decide +kernel

/-- Every code of the table is raised somewhere, at the boundary of its condition (R130). -/
theorem witness_tabledFault_boundaries :
    tabledFault .theta State.reset = some 2 ∧ tabledFault (.init 225) (ready .s256) = some 3 ∧
    tabledFault (.init 224) (ready .s256) = none ∧ tabledFault (.round 24) (ready .s256) = some 4 ∧
    tabledFault (.absorb 17 0) (ready .s256) = some 5 ∧ tabledFault (.absorb 16 0) (ready .s256) = none ∧
    tabledFault (.squeeze 7) (ready .s256) = some 6 ∧ tabledFault (.squeeze 8) (ready .s256) = none ∧
    tabledFault .absblk (loaded .s512 71) = some 7 ∧ tabledFault .absblk (loaded .s512 72) = none ∧
    tabledFault (.push 0) (loadedCap .s256 144 144) = some 8 ∧ tabledFault (.push 0) (loadedCap .s256 143 144) = none ∧
    tabledFault .pad (loadedCap .s224 144 144) = some 8 ∧ tabledFault (.hash 224) (loadedCap .s224 143 144) = none := by
  decide +kernel

theorem witness_NotConfiguredIsRaisedByTheTenReaders :
    State.reset.err = 0 ∧ State.reset.cfg = false ∧ readsConfig .pad = true ∧ readsConfig .mclr = false ∧
    ∃ t, exec .mclr State.reset = .next t :=
  ⟨by decide, by decide, by decide, by decide, _, rfl⟩

theorem witness_CfgIsSetByInitOrHashAndClearedByReset :
    (∃ t, step (asked (ready .s256) .reset) = .next t ∧ (asked (ready .s256) .reset).cfg = true ∧ t.cfg = false) ∧
    ∃ t, step (asked State.reset (.command 0x10000100 0)) = .next t ∧ State.reset.cfg = false ∧ t.cfg = true :=
  ⟨⟨_, rfl, by decide, by decide⟩, _, rfl, by decide, by decide⟩

theorem witness_StatusReadsAnswerAndChangeNothing :
    (asked stuck (.readStatus .status)).input = .readStatus .status :: [] ∧
    (asked stuck (.readStatus .size)).cfg = true ∧ (asked State.reset (.readStatus .size)).cfg = false := by decide

theorem witness_OutputReadsAnswerBelowOlenOnly :
    (asked ((ready .s256).setOut [(0, 7), (1, 9)] 2) (.readOut 1)).outputInv ∧ 1 < ((ready .s256).setOut [(0, 7), (1, 9)] 2).olen.toNat ∧
    (asked ((ready .s256).setOut [(0, 7), (1, 9)] 2) (.readOut 2)).outputInv ∧
    ((ready .s256).setOut [(0, 7), (1, 9)] 2).olen.toNat ≤ 2 := by decide

theorem witness_ResetClearsFlagsBuffersAndCounters : (asked stuck .reset).input = .reset :: [] := rfl

theorem witness_UnspecifiedLanesAndSizeAreNeverSeen :
    State.reset.cfg = false ∧ (∃ t, exec (.init 256) State.reset = .next t ∧ t.cfg = true) ∧
    ∃ t, exec .permute State.reset = .next t ∧ t.cfg = false :=
  ⟨by decide, ⟨_, rfl, by decide⟩, _, rfl, by decide⟩

theorem witness_RotationMovesEveryBit :
    (0 ≤ 63 ∧ 63 ≤ 63) ∧ (rotl64 0x8000000000000000 1).getLsbD 0 = true ∧ (rotl64 1 63).getLsbD 63 = true := by decide

theorem witness_MessageWordsAreLittleEndian :
    (loaded .s256 8).msg.readWord 0 = some 0x6161616161616161 ∧ (loaded .s256 8).msg.read 7 = some 0x61 := by decide +kernel

theorem witness_LaneBytesAndLe64AreInverse : ([1, 2, 3, 4, 5, 6, 7, 0xFF] : List Byte).length = 8 ∧
    le64 [1, 2, 3, 4, 5, 6, 7, 0xFF] = 0xFF07060504030201 := by decide

theorem witness_RoundConstantsFollowTheShiftRegister : 23 < 24 ∧ 63 < 64 ∧ (roundConstant 23).getLsbD 63 = true := by decide

theorem witness_RotationOffsetsFollowTheWalk : 23 < 24 ∧ rotOffset (offsetWalk 23).2 (offsetWalk 23).1 = 44 := by decide

/-- Theta, rho-and-pi, chi and PERMUTE: unconfigured and configured. -/
theorem witness_LaneCommands : State.reset.err = 0 ∧ State.reset.cfg = false ∧ (ready .s256).err = 0 ∧ (ready .s256).cfg = true := by
  decide

/-- IOTA and ROUND: the last legal round index and the first illegal one, and for both a configured and an unconfigured core. -/
theorem witness_RoundIndex : (23 : BitVec 5).toNat < 24 ∧ 24 ≤ (24 : BitVec 5).toNat ∧ (ready .s256).err = 0 ∧
    (ready .s256).cfg = true ∧ State.reset.err = 0 ∧ State.reset.cfg = false := by decide

theorem witness_InitZeroesTheLanesAndSelectsTheSize : State.reset.err = 0 ∧ (512 : BitVec 16).toNat ∈ [224, 256, 384, 512] ∧
    (511 : BitVec 16).toNat ∉ [224, 256, 384, 512] := by decide

theorem witness_AbsorbXorsOneRateLane : (ready .s512).err = 0 ∧ (ready .s512).size = sizeWord .s512 ∧ (ready .s512).cfg = true ∧
    rate .s512 / 64 ≤ (9 : BitVec 5).toNat ∧ (8 : BitVec 5).toNat < rate .s512 / 64 ∧
    ({ ready .s512 with cfg := false } : State).size = sizeWord .s512 := by decide

theorem witness_AbsblkAbsorbsTheBlockAtBlk : (loaded .s512 72).err = 0 ∧ (loaded .s512 72).size = sizeWord .s512 ∧
    (loaded .s512 72).messageInv ∧ (loaded .s512 72).cfg = true ∧
    ((loaded .s512 72).blk + 1) * rateBytes .s512 ≤ (loaded .s512 72).mlen ∧
    (loaded .s512 71).messageInv ∧ (loaded .s512 71).mlen < ((loaded .s512 71).blk + 1) * rateBytes .s512 ∧
    ({ loaded .s512 72 with cfg := false } : State).messageInv := by decide +kernel

theorem witness_AbsblkEqualsAbsorbsThenPermute :
    ((loaded .s512 72).blk + 1) * rateBytes .s512 ≤ (loaded .s512 72).mlen ∧
    ∀ j, j < rateLanes .s512 → (loaded .s512 72).msg.readWord ((loaded .s512 72).blk * rateBytes .s512 + 8 * j) =
      some 0x6161616161616161 := by decide +kernel

theorem witness_SqueezeExtractsAndPermutes : (ready .s512).err = 0 ∧ (ready .s512).size = sizeWord .s512 ∧
    (ready .s512).cfg = true ∧ 8 ≤ (8 : BitVec 16).toNat ∧ (7 : BitVec 16).toNat < 8 ∧
    ({ ready .s512 with cfg := false } : State).size = sizeWord .s512 := by decide

theorem witness_CapacityLanesAreNeverReadOut : (ready .s512).cfg = true ∧ (576 : BitVec 16).toNat / 8 ≤ rateBytes .s512 ∧
    (∀ i, i < rateLanes .s512 → flatLane (setLane zeroLanes 4 4 1) i = flatLane (ready .s512).lanes i) ∧
    (∃ t, exec (.squeeze 576) (ready .s512) = .next t) ∧
    ∃ t, exec (.squeeze 576) ((ready .s512).setLanes (setLane zeroLanes 4 4 1)) = .next t :=
  ⟨by decide, by decide, by decide, ⟨_, rfl⟩, _, rfl⟩

theorem witness_MclrEmptiesTheMessage : State.reset.err = 0 := rfl

theorem witness_PushAppendsOneByte : (loadedCap .s256 144 144).err = 0 ∧ exceedsCap (loadedCap .s256 144 144) (144 + 1) ∧
    (loadedCap .s256 143 144).err = 0 ∧ ¬ exceedsCap (loadedCap .s256 143 144) (143 + 1) := by decide

theorem witness_PadAppendsTheDomainZerosAndFinalByte :
    (loadedCap .s512 71 144).err = 0 ∧ (loadedCap .s512 71 144).size = sizeWord .s512 ∧
    1 = rateBytes .s512 - (loadedCap .s512 71 144).mlen % rateBytes .s512 ∧ ¬ exceedsCap (loadedCap .s512 71 144) (71 + 1) ∧
    72 = rateBytes .s512 - (loadedCap .s512 144 144).mlen % rateBytes .s512 ∧ exceedsCap (loadedCap .s512 144 144) (144 + 72) ∧
    (loadedCap .s512 71 144).cfg = true ∧ ({ loadedCap .s512 71 144 with cfg := false } : State).size = sizeWord .s512 := by decide

theorem witness_PaddedLengthIsTheLeastMultipleAbove : (loaded .s512 72).cfg = true ∧ (loaded .s512 72).size = sizeWord .s512 ∧
    ∃ t, exec .pad (loaded .s512 72) = .next t ∧ t.err = 0 :=
  ⟨by decide, by decide, _, rfl, by decide +kernel⟩

/-- `HASH` as a sequence and as SHA3: a message of one block less one byte, in the smallest buffer. -/
theorem witness_HashOfAFittingMessage : (loadedCap .s224 143 144).err = 0 ∧ (loadedCap .s224 143 144).messageInv ∧
    ¬ exceedsCap (loadedCap .s224 143 144) (leastMultipleAbove .s224 (loadedCap .s224 143 144).mlen) := by decide +kernel

theorem witness_HashDependsOnTheMessageAlone : State.reset.err = 0 ∧ (ready .s512).err = 0 ∧ State.reset.msg = (ready .s512).msg ∧
    State.reset.mlen = (ready .s512).mlen ∧ (∃ t, exec (.hash 256) State.reset = .next t ∧ decide (t.err = 0) = true) ∧
    ∃ t, exec (.hash 256) (ready .s512) = .next t ∧ decide (t.err = 0) = true :=
  ⟨rfl, rfl, rfl, rfl, next_of_check (by decide +kernel), next_of_check (by decide +kernel)⟩

theorem witness_HashFaultsOnlyOnSizeOrOverflow : (State.reset.inv ∧ State.reset.err = 0 ∧ State.reset.config.msgCap = none) ∧
    ((255 : BitVec 16).toNat ∉ [224, 256, 384, 512]) ∧
    ((loadedCap .s224 144 144).inv ∧ exceedsCap (loadedCap .s224 144 144) (leastMultipleAbove .s224 144)) ∧
    ((loadedCap .s224 143 144).inv ∧ ¬ exceedsCap (loadedCap .s224 143 144) (leastMultipleAbove .s224 143)) ∧
    (loadedCap .s224 0 144).inv ∧ (loadedCap .s224 0 144).mlen = 0 :=
  ⟨⟨by decide +kernel, rfl, rfl⟩, by decide, ⟨by decide +kernel, by decide +kernel⟩, ⟨by decide +kernel, by decide +kernel⟩,
    by decide +kernel, rfl⟩

theorem witness_HashbComputesSha3FromAnyState : (loadedCap .s224 7 144).err = 0 ∧
    ¬ exceedsCap (loadedCap .s224 7 144) (leastMultipleAbove .s224 (List.replicate 143 (0x61 : Byte)).length) := by decide +kernel

theorem witness_HexHasTwoDigitsPerByte : ([0xa7, 0x0f] : List Byte)[1]? = some 0x0f := by decide

theorem witness_CommandsWriteOnlyTheirWriteSet : (loaded .s512 72).err = 0 ∧ ∃ t, exec .absblk (loaded .s512 72) = .next t ∧ t.err = 0 :=
  ⟨by decide, _, rfl, by decide +kernel⟩

theorem witness_BytesOutsideTheStoredOnesAreUnchanged : storedCount (.hash 512) (loaded .s512 71) = 1 ∧
    storedCount .pad (loaded .s512 72) = 72 ∧ (∃ t, exec .pad (loaded .s512 72) = .next t ∧ decide (t.mlen = 144) = true) ∧
    ∃ t, exec (.hash 512) (loaded .s512 71) = .next t ∧ decide (t.mlen = 72) = true :=
  ⟨by decide +kernel, by decide +kernel, next_of_check (by decide +kernel), next_of_check (by decide +kernel)⟩

theorem witness_MessageBytesStayUntilCleared :
    ∃ t, (asked (loaded .s512 3) (.command 0x22000000 0)).messageInv ∧
      step (asked (loaded .s512 3) (.command 0x22000000 0)) = .next t ∧
      (HostAction.command 0x22000000 0 ≠ .reset) ∧ ∀ din, HostAction.command 0x22000000 0 ≠ .command (encode .mclr) din :=
  ⟨_, by decide, rfl, by decide, fun din h => by injection h with h1 h2; revert h1; decide⟩

theorem witness_IllegalOperandsFaultAndLegalOnesComplete : (Instr.absorb 18 0).wellFormed = false ∧ (ready .s224).inv ∧
    (ready .s224).err = 0 ∧ (Instr.absorb 17 0).wellFormed = true := by decide +kernel

theorem witness_EveryStepKeepsTheInvariant : (asked (loaded .s512 72) (.command 0x12000000 0)).inv ∧
    ∃ t, step (asked (loaded .s512 72) (.command 0x12000000 0)) = .next t :=
  ⟨by decide +kernel, _, rfl⟩

theorem witness_InvariantStatesStopOnlyAtRefusedReads : (asked State.reset (.readStatus .size)).inv ∧
    (asked State.reset (.readOut 0)).inv ∧ (asked (loaded .s512 72) (.command 0x12000000 0)).inv := by decide +kernel

end Sys2Proof.Tests
end

section
/-! PROOF. Rotation, byte order, the command step and the derived sizes (00_scope.md R5 to R7, 20_memory.md R34 and R35). -/

namespace Sys2Proof.Machine

/-! Rotation -/

/-- For the amounts R7 allows, `rotl64` is the library's rotation: the right shift by 64 of the amount 0 is zero. -/
theorem rotl64_eq_rotateLeft (v : Lane) {n : Nat} (h : n ≤ 63) : rotl64 v n = v.rotateLeft n := by
  have hn : n % 64 = n := Nat.mod_eq_of_lt (by omega)
  rw [BitVec.rotateLeft_def, hn, rotl64]
  split
  · subst n; simp [BitVec.ushiftRight_eq_zero (x := v) le_rfl]
  · rfl

/-- Bit `k` of a rotated lane: the low `n` bits are the top bits of the lane, the others moved up by `n`. -/
theorem getLsbD_rotl64 (v : Lane) {n k : Nat} (hn : n ≤ 63) (hk : k ≤ 63) :
    (rotl64 v n).getLsbD k = if k < n then v.getLsbD (64 - n + k) else v.getLsbD (k - n) := by
  rw [rotl64_eq_rotateLeft v hn, BitVec.getLsbD_rotateLeft, Nat.mod_eq_of_lt (by omega : n < 64),
    decide_eq_true (by omega : k < 64), Bool.true_and, Bool.cond_decide]

/-- Settles O20: a bit pushed past bit 63 comes back at `i + n - 64`, below `n`; any other lands at `i + n`, not below `n`. -/
theorem rotationMovesEveryBit : Obligations.RotationMovesEveryBit := by
  intro v n i hn hi
  rw [getLsbD_rotl64 v hn (by omega)]
  by_cases hw : i + n < 64
  · rw [if_neg (by omega)]
    congr 1; omega
  · rw [if_pos (by omega)]
    congr 1; omega

/-! Byte order -/

/-- Bit `t` of byte `j` of a sequence is bit `8j + t` of the number it is, little-endian (R7). -/
theorem testBit_leNat (bs : List Byte) (j : Nat) {t : Nat} (ht : t < 8) :
    (leNat bs).testBit (8 * j + t) = (bs.getD j 0).getLsbD t := by
  induction bs generalizing j with
  | nil => simp [leNat]
  | cons b bs ih =>
    have hb : b.toNat < 2 ^ 8 := b.isLt
    have hcons : leNat (b :: bs) = 2 ^ 8 * leNat bs + b.toNat := Nat.add_comm ..
    rw [hcons, Nat.testBit_two_pow_mul_add _ hb]
    cases j with
    | zero => rw [if_pos (by omega)]; simp [BitVec.getLsbD]
    | succ j =>
      rw [if_neg (by omega), show 8 * (j + 1) + t - 8 = 8 * j + t by omega, ih]
      rfl

/-- Byte `j` of `le64` of a sequence is the sequence's byte `j` (R7, R34). -/
theorem extractLsb'_le64 {bs : List Byte} {j : Nat} {b : Byte} (hj : j < 8) (hb : bs[j]? = some b) :
    (le64 bs).extractLsb' (8 * j) 8 = b := by
  refine BitVec.eq_of_getLsbD_eq fun t ht => ?_
  rw [BitVec.getLsbD_extractLsb', le64, BitVec.getLsbD_ofNat, testBit_leNat bs j ht, List.getD_eq_getElem?_getD, hb]
  simp [ht, show 8 * j + t < 64 by omega]

/-- Two lanes with the same eight bytes are the same. -/
theorem lane_ext_bytes {v w : Lane} (h : ∀ j, j < 8 → v.extractLsb' (8 * j) 8 = w.extractLsb' (8 * j) 8) : v = w := by
  refine BitVec.eq_of_getLsbD_eq fun k hk => ?_
  have hbit := congrArg (BitVec.getLsbD · (k % 8)) (h (k / 8) (by omega))
  simpa [Nat.mod_lt, Nat.div_add_mod] using hbit

/-- `le64` puts the bytes of a lane together again. -/
@[simp] theorem le64_bytesLe64 (v : Lane) : le64 (bytesLe64 v) = v :=
  lane_ext_bytes fun _ hj => extractLsb'_le64 hj (getElem?_bytesLe64 v hj)

/-- The bytes of `le64` of eight bytes are those bytes. -/
theorem bytesLe64_le64 {bs : List Byte} (h : bs.length = 8) : bytesLe64 (le64 bs) = bs := by
  refine List.ext_getElem? fun j => ?_
  by_cases hj : j < 8
  · have hb : bs[j]? = some bs[j] := List.getElem?_eq_getElem _
    rw [getElem?_bytesLe64 _ hj, extractLsb'_le64 hj hb, hb]
  · rw [List.getElem?_eq_none (by simp; omega), List.getElem?_eq_none (by omega)]

/-- Settles O22: both inverses compare byte by byte, through the byte positions of `bytesLe64` and of `le64`. -/
theorem laneBytesAndLe64AreInverse : Obligations.LaneBytesAndLe64AreInverse :=
  ⟨le64_bytesLe64, fun _ h => bytesLe64_le64 h, fun v _ hj => getElem?_bytesLe64 v hj⟩

/-! The command step -/

/-- A step performs the host's next action in the state whose input is the rest (R166). -/
theorem step_of_input {s : State} {act : HostAction} {rest : List HostAction} (h : s.input = act :: rest) :
    step s = perform act (s.setInput rest) := by
  simp [step, nextAction, h]

/-- A running core executes what the word at its port decodes to (R59). -/
theorem runCommand_of_decode {s : State} {w : CmdWord} {din : Lane} {i : Instr} (he : s.err = 0) (hd : decode w din = .ok i) :
    runCommand w din s = exec i s := by
  rw [runCommand, whenRunning_of_running he, hd]

/-- Settles O7: the step hands the word to the port with the input advanced, and the port, running, executes its decoding. -/
theorem stepRunsTheDecodedCommand : Obligations.StepRunsTheDecodedCommand := by
  intro s w din rest i he hin hd
  calc step s = runCommand w din (s.setInput rest) := step_of_input hin
    _ = exec i (s.setInput rest) := runCommand_of_decode he hd

/-! Derived sizes -/

/-- Settles O19: each of the four rows of the table of R5, computed. -/
theorem derivedSizesAreTheTable : Obligations.DerivedSizesAreTheTable := rfl

end Sys2Proof.Machine
end

section
/-! PROOF. What a command and a step can do, said once (10_state.md R25, 60_exceptions.md R139 to R141, 70_reset_and_hazards.md R166). -/

namespace Sys2Proof.Machine

/-! The state changes of the composed commands -/

/-- `PAD` writes `MSG` from `MLEN` on and moves `MLEN` past the padding, and nothing else (R112, R113). -/
theorem State.padded_eq (s : State) (d : DigestSize) :
    ∃ m, s.padded d = s.setMsg m (paddedLength d s.mlen) ∧
      ∀ k, ¬ (s.mlen ≤ k ∧ k < paddedLength d s.mlen) → m.read k = s.msg.read k := by
  obtain ⟨m, hm, hr⟩ := s.appendedAll_eq (padBytes (padCount d s.mlen))
  rw [length_padBytes (padCount_pos d _)] at hm hr
  exact ⟨m, hm, fun k hk => (hr k).trans (if_neg hk)⟩

/-- `PAD` leaves a whole message whole. -/
theorem State.padded_messageInv {s : State} (d : DigestSize) (h : s.messageInv) : (s.padded d).messageInv := by
  have hb := Memory.holds_ofBytes (s.msg.bytes ++ padBytes (padCount d s.mlen))
  rw [List.length_append, Memory.length_bytes_of_holds h, length_padBytes (padCount_pos d _)] at hb
  rw [State.padded_of_messageInv d h, ← paddedLength_eq]
  exact hb

/-- `ABSBLK` writes the lanes, and `BLK` moves on by one (R92). -/
theorem State.absorbedBlock_eq {s t : State} {d : DigestSize} (h : s.absorbedBlock d = some t) :
    ∃ a, t = (s.setLanes a).setBlk (s.blk + 1) := by
  unfold State.absorbedBlock at h
  split at h
  · cases h
  · exact ⟨_, (Option.some.inj h).symm⟩

/-- `n` `ABSBLK`s write the lanes, and `BLK` moves on by `n` (R120). -/
theorem State.absorbedBlocks_eq {d : DigestSize} {n : Nat} {s t : State} (h : State.absorbedBlocks d n s = some t) :
    ∃ a, t = (s.setLanes a).setBlk (s.blk + n) := by
  induction n generalizing s with
  | zero => obtain rfl := Option.some.inj h; exact ⟨s.lanes, rfl⟩
  | succ n ih =>
    simp only [State.absorbedBlocks] at h
    split at h
    · cases h
    next u hu =>
      obtain ⟨a, rfl⟩ := State.absorbedBlock_eq hu
      obtain ⟨b, rfl⟩ := ih h
      exact ⟨b, by simp only [State.setBlk, State.setLanes, Nat.add_assoc, Nat.add_comm 1]⟩

/-- `HASH` leaves what `INIT`, `PAD`, the absorbed blocks and `SQUEEZE` leave one after the other (R120). -/
theorem State.hashed_eq {s t : State} {d : DigestSize} (h : s.hashed d = some t) :
    ∃ a, t = ((((s.initialised d).padded d).setLanes a).setBlk
      (((s.initialised d).padded d).mlen / rateBytes d)).squeezed d (digestBytes d) := by
  obtain ⟨u, hu, rfl⟩ := Option.map_eq_some_iff.mp h
  obtain ⟨a, rfl⟩ := State.absorbedBlocks_eq hu
  obtain ⟨m, hm, -⟩ := (s.initialised d).padded_eq d
  exact ⟨a, by simp [hm]⟩

/-- What `HASH` writes: the lanes, `SIZE` and `CFG`, `BLK`, `OUT`, and `MSG` from `MLEN` to the padded length (R25, R120). -/
theorem State.hashed_writes {s t : State} {d : DigestSize} (h : s.hashed d = some t) :
    ∃ a m n o l, t = ((((s.setLanes a).setSize (sizeWord d)).setMsg m (paddedLength d s.mlen)).setBlk n).setOut o l ∧
      ∀ k, ¬ (s.mlen ≤ k ∧ k < paddedLength d s.mlen) → m.read k = s.msg.read k := by
  obtain ⟨a, rfl⟩ := State.hashed_eq h
  obtain ⟨m, hm, hr⟩ := (s.initialised d).padded_eq d
  rw [hm]
  exact ⟨_, m, _, _, _, rfl, hr⟩

/-! Commands -/

/-- A command that passes all its tests in `s` leaves `t`: the tests and the state change of each of the 14. -/
inductive Completes (s : State) : Instr → State → Prop
  | theta : s.cfg = true → Completes s .theta (s.setLanes (thetaLanes s.lanes))
  | rhopi : s.cfg = true → Completes s .rhopi (s.setLanes (rhoPiLanes s.lanes))
  | chi : s.cfg = true → Completes s .chi (s.setLanes (chiLanes s.lanes))
  | iota {rnd : BitVec 5} : s.cfg = true → legalRound rnd = true →
      Completes s (.iota rnd) (s.setLanes (iotaLanes rnd.toNat s.lanes))
  | round {rnd : BitVec 5} : s.cfg = true → legalRound rnd = true →
      Completes s (.round rnd) (s.setLanes (roundLanes s.lanes rnd.toNat))
  | permute : s.cfg = true → Completes s .permute (s.setLanes (permuteLanes s.lanes))
  | init {size : BitVec 16} {d : DigestSize} : legalSize? size = some d → Completes s (.init size) (s.initialised d)
  | absorb {idx : BitVec 5} {din : Lane} {d : DigestSize} : s.cfg = true → sizeOf? s = some d → idx.toNat < rateLanes d →
      Completes s (.absorb idx din) (s.setLanes (xorLane s.lanes idx.toNat din))
  | absblk {d : DigestSize} {t : State} : s.cfg = true → sizeOf? s = some d → s.blk * rateBytes d + rateBytes d ≤ s.mlen →
      s.absorbedBlock d = some t → Completes s .absblk t
  | squeeze {len : BitVec 16} {d : DigestSize} : s.cfg = true → squeezeBytes len ≠ 0 → sizeOf? s = some d →
      Completes s (.squeeze len) (s.squeezed d (squeezeBytes len))
  | mclr : Completes s .mclr ((s.setMsg [] 0).setBlk 0)
  | push {b : Byte} : fits s (s.mlen + 1) = true → Completes s (.push b) (s.appended b)
  | pad {d : DigestSize} : s.cfg = true → sizeOf? s = some d → fits s (paddedLength d s.mlen) = true →
      Completes s .pad (s.padded d)
  | hash {size : BitVec 16} {d : DigestSize} {t : State} : legalSize? size = some d →
      fits s (paddedLength d s.mlen) = true → s.hashed d = some t → Completes s (.hash size) t

/-- What a command can answer in a running core: a fault recorded, its completed state change, or, in a state that breaks the
invariant alone, a stop. -/
inductive CommandOutcome (i : Instr) (s : State) : Host.Outcome State Fault Refusal → Prop
  | faulted (f : FaultCode) : CommandOutcome i s (.next (s.faulted f (encode i)))
  | completed {t : State} : Completes s i t → CommandOutcome i s (.next t)
  | stopped (f : Fault) : ¬ s.inv → CommandOutcome i s (.fault f)

namespace CommandOutcome
variable {i : Instr} {s : State} {k : Host.Outcome State Fault Refusal}

theorem whenRunning (he : s.err = 0) (hk : CommandOutcome i s k) : CommandOutcome i s (whenRunning s k) := by
  rwa [whenRunning_of_running he]

theorem whenConfigured (hk : s.cfg = true → CommandOutcome i s k) : CommandOutcome i s (whenConfigured i s k) := by
  cases hc : s.cfg with
  | false => rw [whenConfigured_of_not_cfg hc]; exact .faulted _
  | true => rw [whenConfigured_of_cfg hc]; exact hk hc

theorem require {ok : Bool} {f : FaultCode} (hk : ok = true → CommandOutcome i s k) :
    CommandOutcome i s (require ok f i s k) := by
  cases ok with
  | false => exact .faulted f
  | true => exact hk rfl

theorem withSize {k : DigestSize → Host.Outcome State Fault Refusal} (hc : s.cfg = true)
    (hk : ∀ d, sizeOf? s = some d → CommandOutcome i s (k d)) : CommandOutcome i s (withSize s k) := by
  cases hd : sizeOf? s with
  | some d => rw [withSize_of_size hd]; exact hk d hd
  | none =>
    rw [Machine.withSize, hd]
    refine .stopped _ fun ⟨_, _, _, hsize, _⟩ => ?_
    simpa [hd] using hsize hc

theorem whenLegalSize {n : BitVec 16} {k : DigestSize → Host.Outcome State Fault Refusal}
    (hk : ∀ d, legalSize? n = some d → CommandOutcome i s (k d)) : CommandOutcome i s (whenLegalSize n i s k) := by
  unfold Machine.whenLegalSize
  split
  · exact .faulted _
  · exact hk _ ‹_›

theorem fromMessage {o : Option State} (ho : s.messageInv → o.isSome = true) (hk : ∀ t, o = some t → Completes s i t) :
    CommandOutcome i s (fromMessage o) := by
  cases o with
  | some t => exact .completed (hk t rfl)
  | none => exact .stopped _ fun ⟨_, hmsg, _⟩ => by simpa using ho hmsg

end CommandOutcome

/-- On a whole message `ABSBLK` finds every byte of a block that is present (R92). -/
theorem State.absorbedBlock_isSome {s : State} {d : DigestSize} (hb : s.blk * rateBytes d + rateBytes d ≤ s.mlen)
    (hm : s.messageInv) : (s.absorbedBlock d).isSome = true := by
  simp [State.absorbedBlock_of_messageInv hm hb]

/-- On a whole message `HASH` finds every byte of the padded message (R120). -/
theorem State.hashed_isSome {s : State} (d : DigestSize) (hm : s.messageInv) : (s.hashed d).isSome = true := by
  have hpad := State.padded_of_messageInv (s := s.initialised d) d hm
  have hinv : ((s.initialised d).padded d).messageInv := State.padded_messageInv d hm
  have hblocks := State.absorbedBlocks_of_messageInv d (((s.initialised d).padded d).mlen / rateBytes d) hinv
    (by rw [hpad]; simpa using Nat.div_mul_le_self _ _)
  simp [State.hashed, State.absorbedMessage, hblocks]

/-- What each of the 14 commands can answer in a running core: its tests in order, then its state change (R130 to R139). -/
theorem exec_outcome (i : Instr) {s : State} (he : s.err = 0) : CommandOutcome i s (exec i s) := by
  cases i with
  | theta => exact .whenRunning he <| .whenConfigured fun hc => .completed (.theta hc)
  | rhopi => exact .whenRunning he <| .whenConfigured fun hc => .completed (.rhopi hc)
  | chi => exact .whenRunning he <| .whenConfigured fun hc => .completed (.chi hc)
  | iota rnd => exact .whenRunning he <| .whenConfigured fun hc => .require fun hr => .completed (.iota hc hr)
  | round rnd => exact .whenRunning he <| .whenConfigured fun hc => .require fun hr => .completed (.round hc hr)
  | permute => exact .whenRunning he <| .whenConfigured fun hc => .completed (.permute hc)
  | init size => exact .whenRunning he <| .whenLegalSize fun d hd => .completed (.init hd)
  | absorb idx din =>
    exact .whenRunning he <| .whenConfigured fun hc => .withSize hc fun d hd => .require fun hi =>
      .completed (.absorb hc hd (of_decide_eq_true hi))
  | absblk =>
    refine .whenRunning he <| .whenConfigured fun hc => .withSize hc fun d hd => .require fun hb => ?_
    have hb := of_decide_eq_true hb
    exact .fromMessage (State.absorbedBlock_isSome hb) fun t ht => .absblk hc hd hb ht
  | squeeze len =>
    exact .whenRunning he <| .whenConfigured fun hc => .require fun hn => .withSize hc fun d hd =>
      .completed (.squeeze hc (of_decide_eq_true hn) hd)
  | mclr => exact .whenRunning he <| .completed .mclr
  | push b => exact .whenRunning he <| .require fun hf => .completed (.push hf)
  | pad =>
    exact .whenRunning he <| .whenConfigured fun hc => .withSize hc fun d hd => .require fun hf => .completed (.pad hc hd hf)
  | hash size =>
    refine .whenRunning he <| .whenLegalSize fun d hd => .require fun hf => ?_
    rw [← leastMultipleAbove, ← paddedLength_eq] at hf
    exact .fromMessage (State.hashed_isSome d) fun t ht => .hash hd hf ht

/-! Steps -/

/-- What one step can answer (R166): nothing but the host's side moves (no action, an answered read, an ignored command), a reset, a
command that faults or completes, a stop in a state that breaks the invariant, or the refused read of R33. -/
inductive StepOutcome (s : State) : Host.Outcome State Fault Refusal → Prop
  | quiet (q : List HostAction) (rs : List HostReply) : StepOutcome s (.next { s with input := q, replies := rs })
  | reset {rest : List HostAction} : s.input = .reset :: rest → StepOutcome s (.next (s.setInput rest).hostReset)
  | faulted {w : CmdWord} {din : Lane} {rest : List HostAction} (f : FaultCode) (cmd : CmdWord) :
      s.input = .command w din :: rest → s.err = 0 → StepOutcome s (.next ((s.setInput rest).faulted f cmd))
  | completed {w : CmdWord} {din : Lane} {rest : List HostAction} {i : Instr} {t : State} : s.input = .command w din :: rest →
      s.err = 0 → decode w din = .ok i → Completes (s.setInput rest) i t → StepOutcome s (.next t)
  | stopped (f : Fault) : ¬ s.inv → StepOutcome s (.fault f)
  | refusedRead {k : Nat} {rest : List HostAction} : s.input = .readOut k :: rest → s.olen.toNat ≤ k →
      StepOutcome s (.refused .outputPastEnd)

/-- A command word at the port is ignored, recorded as illegal, or executed (R140, R141). -/
theorem stepOutcome_runCommand {s : State} {w : CmdWord} {din : Lane} {rest : List HostAction}
    (hin : s.input = .command w din :: rest) : StepOutcome s (runCommand w din (s.setInput rest)) := by
  by_cases he : (s.setInput rest).err = 0
  · cases hd : decode w din with
    | error e =>
      rw [runCommand, whenRunning_of_running he, hd]
      exact .faulted .illegalCommand w hin he
    | ok i =>
      rw [runCommand_of_decode he hd]
      have ho := exec_outcome i he
      generalize exec i (s.setInput rest) = o at ho ⊢
      cases ho with
      | faulted f => exact .faulted f _ hin he
      | completed hc => exact .completed hin he hd hc
      | stopped f hinv => exact .stopped f hinv
  · rw [runCommand, whenRunning_of_halted he]
    exact .quiet rest s.replies

/-- A host read of `OUT` is answered below `OLEN` and refused from there on (R33). -/
theorem stepOutcome_readOut {s : State} {k : Nat} {rest : List HostAction} (hin : s.input = .readOut k :: rest) :
    StepOutcome s (readOut k (s.setInput rest)) := by
  unfold readOut
  split
  next hk =>
    split
    next hb =>
      refine .stopped _ fun ⟨_, _, hout, _⟩ => ?_
      have hlen := Memory.length_bytes_of_holds hout
      simp only [State.setInput_out, Memory.read_of_holds hout, List.getElem?_eq_none_iff] at hb
      simp only [State.setInput_olen] at hk
      omega
    next b hb => exact .quiet rest (s.replies ++ [.output k b])
  next hk => exact .refusedRead hin (Nat.le_of_not_lt hk)

theorem step_outcome (s : State) : StepOutcome s (step s) := by
  cases hin : s.input with
  | nil =>
    rw [step, nextAction, hin]
    exact .quiet s.input s.replies
  | cons act rest =>
    rw [step_of_input hin]
    cases act with
    | command w din => exact stepOutcome_runCommand hin
    | readStatus r => exact .quiet rest (s.replies ++ [statusReply (s.setInput rest) r])
    | readOut k => exact stepOutcome_readOut hin
    | reset => exact .reset hin

theorem stepOutcome_of_step {s : State} {o : Host.Outcome State Fault Refusal} (h : step s = o) : StepOutcome s o :=
  h ▸ step_outcome s

end Sys2Proof.Machine
end

section
/-! PROOF. The state: its invariant, who writes its registers, and the message's bytes (10_state.md R13 to R25). -/

namespace Sys2Proof.Machine

/-! What each update does to the invariant -/

theorem faultCode_le (f : FaultCode) : (faultCode f).toNat ≤ 8 := by cases f <;> decide

theorem faultCode_ne_zero (f : FaultCode) : faultCode f ≠ 0 := by cases f <;> decide

section InvariantUpdates
variable {s : State}

/-- A fault writes `ERR` and `ERRCMD` only, and its code is one of the eight (R139). -/
theorem State.inv_faulted (f : FaultCode) (cmd : CmdWord) (h : s.inv) : (s.faulted f cmd).inv := by
  obtain ⟨hcap, hmsg, hout, hsize, hblk, -⟩ := h
  exact ⟨hcap, hmsg, hout, hsize, hblk, faultCode_le f, fun he => absurd he (faultCode_ne_zero f)⟩

theorem fits_zero_of_fits {n : Nat} (h : fits s n = true) : fits s 0 = true := fits_mono h (Nat.zero_le n)

/-- Reset empties the buffers, clears the flags and keeps the capacity (R24). -/
theorem State.inv_hostReset (h : s.inv) : s.hostReset.inv := by
  obtain ⟨⟨hwf, hfits⟩, -⟩ := h
  exact ⟨⟨hwf, fits_zero_of_fits hfits⟩, rfl, rfl, nofun, ⟨nofun, fun _ => ⟨rfl, rfl⟩⟩, Nat.zero_le 8, fun _ => rfl⟩

/-- `INIT` sets `CFG` with a legal `SIZE` and empties `OUT` and the count of blocks (R90). -/
theorem State.inv_initialised (d : DigestSize) (h : s.inv) : (s.initialised d).inv := by
  obtain ⟨hcap, hmsg, -, -, -, herr⟩ := h
  have hsize : sizeOf? (s.initialised d) = some d := legalSize?_sizeWord d
  exact ⟨hcap, hmsg, rfl, fun _ => by simp [hsize], ⟨fun _ _ _ => by simp, nofun⟩, herr⟩

/-- A longer whole message that still fits keeps the invariant: the absorbed blocks stay inside it. -/
theorem State.inv_setMsg {m : Memory} {n : Nat} (h : s.inv) (hle : s.mlen ≤ n) (hfits : fits s n = true) (hm : m.holds n) :
    (s.setMsg m n).inv := by
  obtain ⟨⟨hwf, -⟩, -, hout, hsize, ⟨hblk, hidle⟩, herr⟩ := h
  exact ⟨⟨hwf, hfits⟩, hm, hout, hsize, ⟨fun hc d hd => (hblk hc d hd).trans hle, hidle⟩, herr⟩

/-- `PUSH` (R111). -/
theorem State.inv_appended (b : Byte) (h : s.inv) (hfits : fits s (s.mlen + 1) = true) : (s.appended b).inv := by
  have ⟨_, hmsg, _⟩ := h
  exact State.inv_setMsg h (Nat.le_succ _) hfits (Memory.holds_write hmsg b)

/-- `PAD` (R112). -/
theorem State.inv_padded (d : DigestSize) (h : s.inv) (hfits : fits s (paddedLength d s.mlen) = true) : (s.padded d).inv := by
  have ⟨_, hmsg, _⟩ := h
  obtain ⟨m, hpad, -⟩ := s.padded_eq d
  have hwhole := State.padded_messageInv d hmsg
  rw [hpad] at hwhole ⊢
  exact State.inv_setMsg h (Nat.le_add_right _ _) hfits hwhole

/-- `MCLR` empties the message and the count of blocks with it (R110). -/
theorem State.inv_cleared (h : s.inv) : ((s.setMsg [] 0).setBlk 0).inv := by
  obtain ⟨⟨hwf, hfits⟩, -, hout, hsize, ⟨-, hidle⟩, herr⟩ := h
  exact ⟨⟨hwf, fits_zero_of_fits hfits⟩, rfl, hout, hsize, ⟨fun _ _ _ => by simp, fun hc => ⟨rfl, (hidle hc).2⟩⟩, herr⟩

/-- Absorbing up to block `n` of a configured core's message (R92). -/
theorem State.inv_setBlk {d : DigestSize} {n : Nat} (h : s.inv) (hc : s.cfg = true) (hd : sizeOf? s = some d)
    (hn : n * rateBytes d ≤ s.mlen) : (s.setBlk n).inv := by
  obtain ⟨hcap, hmsg, hout, hsize, -, herr⟩ := h
  refine ⟨hcap, hmsg, hout, hsize, ⟨fun _ d' hd' => ?_, fun hc' => by simp [hc] at hc'⟩, herr⟩
  obtain rfl : d = d' := Option.some.inj (hd.symm.trans hd')
  exact hn

/-- `SQUEEZE` of a configured core fills `OUT` with exactly the bytes asked for, a count that `OLEN` can hold (R93). -/
theorem State.inv_squeezed {need : Nat} (d : DigestSize) (h : s.inv) (hc : s.cfg = true) (hpos : 0 < need) (hneed : need ≤ outCap) :
    (s.squeezed d need).inv := by
  obtain ⟨hcap, hmsg, -, hsize, ⟨hblk, -⟩, herr⟩ := h
  have hlen : ((extractions d (squeezeTurns d need) s.lanes).take need).length = need := by
    rw [List.length_take, length_extractions, Nat.min_eq_left (le_squeezeTurns_mul d need)]
  have holen : (BitVec.ofNat 13 need).toNat = need := Nat.mod_eq_of_lt (Nat.lt_succ_of_le hneed)
  have hout := (Memory.holds_ofBytes ((extractions d (squeezeTurns d need) s.lanes).take need)).trans
    (congrArg List.range (hlen.trans holen.symm))
  rw [State.squeezed_eq s d hpos]
  exact ⟨hcap, hmsg, hout, hsize, ⟨hblk, fun hc' => by simp [hc] at hc'⟩, herr⟩

/-- R93: 16 bits of length are at most 8191 whole bytes. -/
theorem squeezeBytes_le (len : BitVec 16) : squeezeBytes len ≤ outCap := by
  have := len.isLt
  unfold squeezeBytes outCap; omega

end InvariantUpdates

/-- A digest is at most a block, far below the capacity of `OUT`. -/
theorem digestBytes_le_outCap (d : DigestSize) : digestBytes d ≤ outCap := by cases d <;> decide

/-- Every command that completes keeps the invariant. -/
theorem Completes.inv {i : Instr} {s t : State} (hc : Completes s i t) (h : s.inv) : t.inv := by
  cases hc with
  | theta | rhopi | chi | iota | round | permute | absorb => exact h
  | init hd => exact State.inv_initialised _ h
  | absblk hcfg hd hb ht =>
    obtain ⟨a, rfl⟩ := State.absorbedBlock_eq ht
    exact State.inv_setBlk (s := s.setLanes a) h hcfg hd (by rwa [Nat.succ_mul])
  | squeeze hcfg hn hd => exact State.inv_squeezed _ h hcfg (Nat.pos_of_ne_zero hn) (squeezeBytes_le _)
  | mclr => exact State.inv_cleared h
  | push hf => exact State.inv_appended _ h hf
  | pad hcfg hd hf => exact State.inv_padded _ h hf
  | @hash size d t hd hf ht =>
    obtain ⟨a, rfl⟩ := State.hashed_eq ht
    have hpad : ((s.initialised d).padded d).inv := State.inv_padded d (State.inv_initialised d h) hf
    obtain ⟨m, hm, -⟩ := (s.initialised d).padded_eq d
    have hcfg : ((s.initialised d).padded d).cfg = true := by rw [hm]; rfl
    have hsize : sizeOf? ((s.initialised d).padded d) = some d := by rw [hm]; exact legalSize?_sizeWord d
    refine State.inv_squeezed d ?_ hcfg (digestBytes_pos d) (digestBytes_le_outCap d)
    exact State.inv_setBlk (s := ((s.initialised d).padded d).setLanes a) hpad hcfg hsize (Nat.div_mul_le_self _ _)

/-- Settles O53: the host's own side is no part of the invariant, and a reset, a fault and each command's completion keep it. -/
theorem everyStepKeepsTheInvariant : Obligations.EveryStepKeepsTheInvariant := by
  intro s t h hstep
  cases stepOutcome_of_step hstep with
  | quiet q rs => exact h
  | reset hin => exact State.inv_hostReset h
  | faulted f cmd hin he => exact State.inv_faulted f cmd h
  | completed hin he hd hc => exact hc.inv h

/-- Settles O54: a stop breaks the invariant, and the only refusal is that of R33. -/
theorem invariantStatesStopOnlyAtRefusedReads : Obligations.InvariantStatesStopOnlyAtRefusedReads := by
  intro s h
  generalize hstep : step s = o
  cases stepOutcome_of_step hstep with
  | stopped f hinv => exact absurd h hinv
  | refusedRead hin hk => exact .inr ⟨rfl, _, _, hin, hk⟩
  | quiet q rs => exact .inl ⟨_, rfl⟩
  | reset hin => exact .inl ⟨_, rfl⟩
  | faulted f cmd hin he => exact .inl ⟨_, rfl⟩
  | completed hin he hd hc => exact .inl ⟨_, rfl⟩

/-- Settles O52: each part at the values of R24, with both buffers empty. -/
theorem resetMeetsTheInvariant : Obligations.ResetMeetsTheInvariant :=
  ⟨⟨nofun, rfl⟩, rfl, rfl, nofun, ⟨nofun, fun _ => ⟨rfl, rfl⟩⟩, Nat.zero_le 8, fun _ => rfl⟩

/-! Who writes `ERR`, `ERRCMD` and `CFG` -/

/-- Settles O10: from a recorded fault a command changes nothing, and no other action but reset touches `ERR` and `ERRCMD`. -/
theorem onlyResetClearsErr : Obligations.OnlyResetClearsErr := by
  intro s t herr hstep hchange
  cases stepOutcome_of_step hstep with
  | reset hin => exact ⟨_, hin⟩
  | quiet q rs => rcases hchange with h | h <;> exact absurd rfl h
  | faulted f cmd hin he => exact absurd he herr
  | completed hin he hd hc => exact absurd he herr

theorem mem_sizes_of_legalSize? {n : BitVec 16} {d : DigestSize} (h : legalSize? n = some d) :
    n.toNat ∈ [224, 256, 384, 512] := by
  by_contra hn
  simp [legalSize?_eq_none.mpr hn] at h

/-- A command that completes leaves `CFG`, or is an `INIT` or a `HASH`, which sets it and leaves its operand in `SIZE` (R14, R15). -/
theorem Completes.cfg_eq_or_selects {i : Instr} {s t : State} (hc : Completes s i t) :
    t.cfg = s.cfg ∨ ∃ size, (i = .init size ∨ i = .hash size) ∧ size.toNat ∈ [224, 256, 384, 512] ∧
      t.cfg = true ∧ t.size = size := by
  cases hc with
  | theta | rhopi | chi | iota | round | permute | absorb | squeeze | mclr | push => exact .inl rfl
  | absblk hcfg hd hb ht =>
    obtain ⟨a, rfl⟩ := State.absorbedBlock_eq ht
    exact .inl rfl
  | @pad d hcfg hd hf =>
    obtain ⟨m, hm, -⟩ := s.padded_eq d
    exact .inl (by rw [hm]; rfl)
  | @init size d hd =>
    exact .inr ⟨size, .inl rfl, mem_sizes_of_legalSize? hd, rfl, (legalSize?_eq_some.mp hd).symm⟩
  | @hash size d _ hd hf ht =>
    obtain ⟨a, m, n, o, l, rfl, -⟩ := State.hashed_writes ht
    exact .inr ⟨size, .inr rfl, mem_sizes_of_legalSize? hd, rfl, (legalSize?_eq_some.mp hd).symm⟩

/-- Settles O14: no step but reset and a completed command writes `CFG`, and of the commands only `INIT` and `HASH` do, to 1. -/
theorem cfgIsSetByInitOrHashAndClearedByReset : Obligations.CfgIsSetByInitOrHashAndClearedByReset := by
  intro s t hstep
  by_cases hkept : t.cfg = s.cfg
  · exact ⟨fun h h' => by simp [hkept, h] at h', fun h h' => by simp [hkept, h] at h'⟩
  cases stepOutcome_of_step hstep with
  | quiet q rs => exact absurd rfl hkept
  | faulted f cmd hin he => exact absurd rfl hkept
  | reset hin => exact ⟨fun _ _ => ⟨_, hin⟩, fun _ => nofun⟩
  | completed hin he hd hc =>
    obtain ⟨size, hi, hlegal, hcfg, hsize⟩ := hc.cfg_eq_or_selects.resolve_left hkept
    refine ⟨fun _ h => by simp [hcfg] at h, fun _ _ => ⟨_, _, _, size, hin, ?_, hlegal, hsize⟩⟩
    rcases hi with rfl | rfl
    · exact .inl hd
    · exact .inr hd

/-! What a completed command writes -/

/-- A completed command but `MCLR` only appends to the message: bytes outside the old length to the new one stay (R18, R31). -/
theorem Completes.appends {i : Instr} {s t : State} (hc : Completes s i t) (hi : i ≠ .mclr) :
    s.mlen ≤ t.mlen ∧ ∀ k, ¬ (s.mlen ≤ k ∧ k < t.mlen) → t.msg.read k = s.msg.read k := by
  cases hc with
  | theta | rhopi | chi | iota | round | permute | init | absorb | squeeze => exact ⟨le_rfl, fun _ _ => rfl⟩
  | absblk hcfg hd hb ht =>
    obtain ⟨a, rfl⟩ := State.absorbedBlock_eq ht
    exact ⟨le_rfl, fun _ _ => rfl⟩
  | mclr => exact absurd rfl hi
  | push =>
    refine ⟨Nat.le_succ _, fun k hk => Memory.read_write_other _ _ fun h => hk ?_⟩
    simp [h]
  | @pad d hcfg hd hf =>
    obtain ⟨m, hm, hr⟩ := s.padded_eq d
    rw [hm]
    exact ⟨Nat.le_add_right _ _, hr⟩
  | hash hd hf ht =>
    obtain ⟨a, m, n, o, l, rfl, hr⟩ := State.hashed_writes ht
    exact ⟨Nat.le_add_right _ _, hr⟩

/-- A flat lane index is the index of its own position (R11). -/
theorem flatIndex_rowOf_colOf {n : Nat} (h : n < 25) : flatIndex (rowOf n) (colOf n) = n := by
  simp only [flatIndex, rowOf, colOf, Fin.val_ofNat]; omega

/-- R25: a completed command writes nothing outside its row. -/
theorem Completes.writesOnly {i : Instr} {s t : State} (hc : Completes s i t) : writesOnly i s t := by
  have happ := hc.appends
  cases hc with
  | theta | rhopi | chi | round | permute | init | squeeze | mclr => exact rfl
  | iota => exact And.intro rfl fun r c hrc => by simp [iotaLanes, hrc]
  | @absorb idx din d hcfg hd hidx =>
    refine And.intro rfl fun r c hrc => (laneAt_setLane ..).trans (if_neg ?_)
    rintro ⟨rfl, rfl⟩
    exact hrc (flatIndex_rowOf_colOf (by have := rateLanes_le d; omega))
  | absblk hcfg hd hb ht =>
    obtain ⟨a, rfl⟩ := State.absorbedBlock_eq ht
    exact rfl
  | push => exact And.intro rfl fun k hk => (happ nofun).2 k (by rw [State.appended_mlen]; omega)
  | @pad d hcfg hd hf =>
    obtain ⟨m, hm, -⟩ := s.padded_eq d
    exact And.intro (by rw [hm]; rfl) (happ nofun).2
  | hash hd hf ht =>
    obtain ⟨a, m, n, o, l, rfl, -⟩ := State.hashed_writes ht
    exact And.intro rfl (happ nofun).2

/-- Settles O48: a command of a running core that ends with `ERR = 0` did not fault, so it completed. -/
theorem commandsWriteOnlyTheirWriteSet : Obligations.CommandsWriteOnlyTheirWriteSet := by
  intro i s t he hexec ht
  have ho := exec_outcome i he
  rw [hexec] at ho
  cases ho with
  | faulted f => exact absurd ht (faultCode_ne_zero f)
  | completed hc => exact hc.writesOnly

/-! The message's bytes -/

/-- A word that decodes matches a row of R58, and the row makes the command (R59). -/
theorem exists_row_of_decode {w : CmdWord} {din : Lane} {i : Instr} (h : decode w din = .ok i) :
    ∃ row ∈ opcodeMap, w &&& row.mask = row.pattern ∧ row.make w din = i := by
  unfold decode at h
  split at h
  · cases h
  next row hrow =>
    split at h
    next hmask => exact ⟨row, List.mem_of_find?_eq_some hrow, hmask, Except.ok.inj h⟩
    · cases h

/-- `MCLR` has one word only: its row masks every bit (R58). -/
theorem eq_encode_mclr_of_decode {w : CmdWord} {din : Lane} (h : decode w din = .ok .mclr) : w = encode .mclr := by
  obtain ⟨row, hrow, hmatch, hmake⟩ := exists_row_of_decode h
  have hfixed : ∀ row ∈ opcodeMap, row.make w din = .mclr → row.mask = 0xFFFFFFFF ∧ row.pattern = 0x20000000 := by
    simp [opcodeMap]
  obtain ⟨hmask, hpattern⟩ := hfixed row hrow hmake
  rw [hmask, hpattern] at hmatch
  exact BitVec.and_allOnes.symm.trans hmatch

/-- Settles O50: of the steps left, only a completed command touches the message, and it appends. -/
theorem messageBytesStayUntilCleared : Obligations.MessageBytesStayUntilCleared := by
  intro s t act rest hin hstep _ hreset hmclr
  cases stepOutcome_of_step hstep with
  | quiet q rs => exact ⟨le_rfl, fun _ _ => rfl⟩
  | faulted f cmd hin' he => exact ⟨le_rfl, fun _ _ => rfl⟩
  | reset hin' => exact absurd (List.cons.inj (hin.symm.trans hin')).1 hreset
  | @completed w din rest' i _ hin' he hd hc =>
    have hact : act = .command w din := (List.cons.inj (hin.symm.trans hin')).1
    have hi : i ≠ .mclr := by
      rintro rfl
      exact hmclr din (by rw [hact, eq_encode_mclr_of_decode hd])
    obtain ⟨hle, hr⟩ := hc.appends hi
    exact ⟨hle, fun k hk => hr k fun hk' => Nat.not_lt.mpr hk'.1 hk⟩

/-! Status reads and reset -/

/-- R20: SR0 as a number, `CFG` in bit 0 and `ERR` in bits 4:1. -/
theorem toNat_statusWord (s : State) : (statusWord s).toNat = (if s.cfg then 1 else 0) + 2 * s.err.toNat := by
  have herr := s.err.isLt
  rw [statusWord, BitVec.toNat_append, BitVec.toNat_append, ← Nat.shiftLeft_add_eq_or_of_lt (BitVec.isLt _),
    ← Nat.shiftLeft_add_eq_or_of_lt herr]
  cases s.cfg <;> simp [Nat.shiftLeft_eq] <;> omega

/-- A step that reads a status register appends its reply and changes nothing of the core (R20, R166). -/
theorem step_of_readStatus {s : State} {r : StatusReg} {rest : List HostAction} {reply : HostReply}
    (h : s.input = .readStatus r :: rest) (hr : statusReply s r = reply) :
    step s = .next ((s.setInput rest).addReply reply) :=
  hr ▸ step_of_input h

/-- Settles O15: each register's reply is its value, and that of SR1 while `CFG = 0` is the refusal. -/
theorem statusReadsAnswerAndChangeNothing : Obligations.StatusReadsAnswerAndChangeNothing := by
  intro s rest
  refine ⟨fun h => step_of_readStatus h ?_, fun h hc => step_of_readStatus h ?_, fun h hc => step_of_readStatus h ?_,
    fun h => step_of_readStatus h rfl, fun h => step_of_readStatus h rfl, fun h => step_of_readStatus h rfl,
    fun h => step_of_readStatus h rfl⟩
  · rw [← toNat_statusWord]; rfl
  · simp [statusReply, statusValue, hc]
  · simp [statusReply, statusValue, hc]

/-- Settles O17: the step performs the reset, whose registers are those of R24. -/
theorem resetClearsFlagsBuffersAndCounters : Obligations.ResetClearsFlagsBuffersAndCounters := by
  intro s rest hin
  exact ⟨_, step_of_input hin, rfl, rfl, rfl, rfl, rfl, rfl, rfl, rfl, rfl, rfl, rfl⟩

end Sys2Proof.Machine
end

section
/-! PROOF. The two byte spaces: the words of `MSG`, host reads of `OUT`, and the bytes a command leaves (20_memory.md R30 to R39). -/

namespace Sys2Proof.Machine

/-! Words of `MSG` -/

/-- A word that is read is `le64` of eight bytes, and these are what the single reads answer (R8, R34). -/
theorem Memory.readWord_eq_some {m : Memory} {a : Nat} {v : Lane} :
    m.readWord a = some v ↔ ∃ bs, (bs.length = 8 ∧ ∀ j, j < 8 → m.read (a + j) = bs[j]?) ∧ le64 bs = v := by
  simp only [Memory.readWord, Option.map_eq_some_iff, Memory.readBytes_eq_some]

/-- Settles O21: the byte at address `a + j` is byte `j` of the eight the word is made of, and `le64` puts it at bit `8j`. -/
theorem messageWordsAreLittleEndian : Obligations.MessageWordsAreLittleEndian := by
  intro m a v hword j hj
  obtain ⟨bs, ⟨hlen, hread⟩, rfl⟩ := Memory.readWord_eq_some.mp hword
  have hb : bs[j]? = some bs[j] := List.getElem?_eq_getElem _
  rw [hread j hj, extractLsb'_le64 hj hb, hb]

/-! Host reads of `OUT` -/

/-- A read below `OLEN` of a byte that exists is answered with it (R33). -/
theorem readOut_of_read {s : State} {k : Nat} {b : Byte} (hk : k < s.olen.toNat) (hb : s.out.read k = some b) :
    readOut k s = .next (s.addReply (.output k b)) := by
  rw [readOut, if_pos hk, hb]

/-- A read from `OLEN` on is refused (R33). -/
theorem readOut_of_olen_le {s : State} {k : Nat} (hk : s.olen.toNat ≤ k) : readOut k s = .refused .outputPastEnd :=
  if_neg (Nat.not_lt.mpr hk)

/-- Settles O16: an `OUT` filled up to `OLEN` has a byte at every address below, its `k`-th in order. -/
theorem outputReadsAnswerBelowOlenOnly : Obligations.OutputReadsAnswerBelowOlenOnly := by
  intro s k rest hout hin
  have hstep : step s = readOut k (s.setInput rest) := step_of_input hin
  rw [hstep]
  refine ⟨fun hk => ?_, readOut_of_olen_le (s := s.setInput rest)⟩
  have hlen : k < s.out.bytes.length := hk.trans_eq (Memory.length_bytes_of_holds hout).symm
  have hb : s.out.bytes[k]? = some s.out.bytes[k] := List.getElem?_eq_getElem hlen
  exact ⟨_, hb, readOut_of_read hk ((Memory.read_of_holds hout k).trans hb)⟩

/-! The bytes a command leaves as they are -/

/-- A halted core ignores every command (R140). -/
theorem exec_of_halted (i : Instr) {s : State} (h : s.err ≠ 0) : exec i s = .next s := by
  cases i <;> exact whenRunning_of_halted h

/-- What a command that answers a next state has done: nothing in a halted core, recorded a fault, or completed (R139, R140). -/
theorem exec_next {i : Instr} {s t : State} (h : exec i s = .next t) :
    (s.err ≠ 0 ∧ t = s) ∨ (s.err = 0 ∧ ∃ f, t = s.faulted f (encode i)) ∨ (s.err = 0 ∧ Completes s i t) := by
  by_cases he : s.err = 0
  · have ho := exec_outcome i he
    rw [h] at ho
    cases ho with
    | faulted f => exact .inr (.inl ⟨he, f, rfl⟩)
    | completed hc => exact .inr (.inr ⟨he, hc⟩)
  · rw [exec_of_halted i he] at h
    exact .inl ⟨he, (Host.Outcome.next.inj h).symm⟩

/-- A completed command but `MCLR` moves `MLEN` on by the bytes it stores (R39, R112). -/
theorem Completes.mlen_eq {i : Instr} {s t : State} (hc : Completes s i t) (hi : i ≠ .mclr) :
    t.mlen = s.mlen + storedCount i s := by
  cases hc with
  | theta | rhopi | chi | iota | round | permute | init | absorb | squeeze | push => exact rfl
  | absblk hcfg hd hb ht =>
    obtain ⟨a, rfl⟩ := State.absorbedBlock_eq ht
    exact rfl
  | mclr => exact absurd rfl hi
  | @pad d hcfg hd hf =>
    obtain ⟨m, hm, -⟩ := s.padded_eq d
    rw [hm, storedCount, hd]; rfl
  | @hash size d t hd hf ht =>
    obtain ⟨a, m, n, o, l, rfl, -⟩ := State.hashed_writes ht
    rw [storedCount, hd]; rfl

/-- A completed command but `INIT`, `SQUEEZE` and `HASH` leaves `OUT` (R25, R32). -/
theorem Completes.out_eq {i : Instr} {s t : State} (hc : Completes s i t)
    (hi : ∀ n, i ≠ .init n ∧ i ≠ .squeeze n ∧ i ≠ .hash n) : t.out = s.out := by
  cases hc with
  | theta | rhopi | chi | iota | round | permute | absorb | mclr | push => rfl
  | @init size => exact absurd rfl (hi size).1
  | absblk hcfg hd hb ht =>
    obtain ⟨a, rfl⟩ := State.absorbedBlock_eq ht
    rfl
  | @squeeze len => exact absurd rfl (hi len).2.1
  | @pad d hcfg hd hf =>
    obtain ⟨m, hm, -⟩ := s.padded_eq d
    rw [hm]; rfl
  | @hash size => exact absurd rfl (hi size).2.2

/-- Settles O49: an ignored or faulting command touches no byte, and a completed one appends exactly what it stores. -/
theorem bytesOutsideTheStoredOnesAreUnchanged : Obligations.BytesOutsideTheStoredOnesAreUnchanged := by
  intro i s t hexec
  rcases exec_next hexec with ⟨-, rfl⟩ | ⟨-, f, rfl⟩ | ⟨-, hc⟩
  · exact ⟨fun _ _ _ => rfl, fun _ _ => rfl⟩
  · exact ⟨fun _ _ _ => rfl, fun _ _ => rfl⟩
  · refine ⟨fun hi k hk => ?_, fun hi k => by rw [hc.out_eq hi]⟩
    rw [← hc.mlen_eq hi] at hk
    exact (hc.appends hi).2 k hk

end Sys2Proof.Machine
end

section
/-! PROOF. The encoding: decoder and encoder, the words the decoder refuses, `DIN`, operand legality and the pseudo-instruction
`HASHB` (30_encoding.md). -/

namespace Sys2Proof.Machine

/-! Decoder and encoder -/

/-- No two rows share an opcode (R58). -/
theorem row_eq_of_op_eq {row row' : OpcodeRow} (hrow : row ∈ opcodeMap) (hrow' : row' ∈ opcodeMap) (h : row.op = row'.op) :
    row = row' :=
  List.inj_on_of_nodup_map (f := OpcodeRow.op) (by decide) hrow hrow' h

/-- Every row fixes the whole opcode byte, to its opcode (R51, R58). -/
theorem opField_of_row : ∀ row ∈ opcodeMap, opField row.mask = BitVec.allOnes 8 ∧ opField row.pattern = row.op := by
  simp [opcodeMap, opField]

/-- A word that matches a row has the row's opcode. -/
theorem opField_of_match {w : CmdWord} {row : OpcodeRow} (hrow : row ∈ opcodeMap) (hmatch : w &&& row.mask = row.pattern) :
    opField w = row.op := by
  obtain ⟨hmask, hpattern⟩ := opField_of_row row hrow
  calc opField w = opField w &&& opField row.mask := by rw [hmask, BitVec.and_allOnes]
    _ = opField (w &&& row.mask) := BitVec.extractLsb'_and.symm
    _ = row.op := by rw [hmatch, hpattern]

/-- A word that matches a row decodes to the command of that row: the search by opcode finds no other (R59). -/
theorem decode_of_match {w : CmdWord} {row : OpcodeRow} (hrow : row ∈ opcodeMap) (hmatch : w &&& row.mask = row.pattern)
    (din : Lane) : decode w din = .ok (row.make w din) := by
  have hop := opField_of_match hrow hmatch
  unfold decode
  split
  next hnone => simpa [hop] using List.find?_eq_none.mp hnone row hrow
  next found hfound =>
    have hfop : found.op = opField w := by simpa using List.find?_some hfound
    obtain rfl := row_eq_of_op_eq (List.mem_of_find?_eq_some hfound) hrow (hfop.trans hop)
    exact if_pos hmatch

/-- A word decodes to a command exactly when it matches a row that makes the command of it (R59). -/
theorem decode_eq_ok_iff {w : CmdWord} {din : Lane} {i : Instr} :
    decode w din = .ok i ↔ ∃ row ∈ opcodeMap, w &&& row.mask = row.pattern ∧ row.make w din = i := by
  refine ⟨exists_row_of_decode, ?_⟩
  rintro ⟨row, hrow, hmatch, rfl⟩
  exact decode_of_match hrow hmatch din

/-- Settles O5: a match fixes the opcode, so the row found by opcode is the one matched, and two rows matched are one. -/
theorem atMostOneRowMatchesAWord : Obligations.AtMostOneRowMatchesAWord :=
  ⟨rfl, fun _ din _ hrow hmatch => decode_of_match hrow hmatch din, fun _ _ hrow _ hrow' hmatch hmatch' =>
    row_eq_of_op_eq hrow hrow' ((opField_of_match hrow hmatch).symm.trans (opField_of_match hrow' hmatch'))⟩

/-- Every command's word matches the row that makes it (R58). -/
theorem exists_row_of_instr (i : Instr) : Laws.MatchesRow.Statement i := by
  cases i with
  | theta => exact Laws.MatchesRow.theta
  | rhopi => exact Laws.MatchesRow.rhopi
  | chi => exact Laws.MatchesRow.chi
  | iota rnd => exact Laws.MatchesRow.iota rnd
  | round rnd => exact Laws.MatchesRow.round rnd
  | permute => exact Laws.MatchesRow.permute
  | init size => exact Laws.MatchesRow.init size
  | absorb idx din => exact Laws.MatchesRow.absorb idx din
  | absblk => exact Laws.MatchesRow.absblk
  | squeeze len => exact Laws.MatchesRow.squeeze len
  | mclr => exact Laws.MatchesRow.mclr
  | push byte => exact Laws.MatchesRow.push byte
  | pad => exact Laws.MatchesRow.pad
  | hash size => exact Laws.MatchesRow.hash size

/-- Settles O1: the word matches the command's own row, and a word decodes to the command of the row it matches. -/
theorem decodeOfEncodeIsTheCommand : Obligations.DecodeOfEncodeIsTheCommand :=
  fun i => decode_eq_ok_iff.mpr (exists_row_of_instr i)

/-- A word whose upper bits are `hi` is `hi` followed by its own low field. -/
theorem append_extractLsb'_of_and {m n : Nat} {hi : BitVec m} {w : BitVec (m + n)}
    (h : w &&& (BitVec.allOnes m ++ 0#n) = hi ++ 0#n) : hi ++ w.extractLsb' 0 n = w := by
  refine BitVec.eq_of_getLsbD_eq fun k hk => ?_
  have hbit := congrArg (BitVec.getLsbD · k) h
  rw [BitVec.getLsbD_append]
  by_cases hlow : k < n
  · simp [hlow]
  · simpa [hlow, BitVec.getLsbD_append, show k - n < m by omega] using hbit.symm

/-- The command a row makes of a word it matches encodes to that word: the mask leaves free the operand field alone (R57, R58). -/
theorem encode_make_of_match (w : CmdWord) (din : Lane) :
    ∀ row ∈ opcodeMap, w &&& row.mask = row.pattern → encode (row.make w din) = w := by
  have noField {p : CmdWord} (h : w &&& 0xFFFFFFFF = p) : p = w := h.symm.trans BitVec.and_allOnes
  have field5 {hi : BitVec 27} (h : w &&& 0xFFFFFFE0 = hi ++ 0#5) : hi ++ w.extractLsb' 0 5 = w := append_extractLsb'_of_and h
  have field8 {hi : BitVec 24} (h : w &&& 0xFFFFFF00 = hi ++ 0#8) : hi ++ w.extractLsb' 0 8 = w := append_extractLsb'_of_and h
  have field16 {hi : BitVec 16} (h : w &&& 0xFFFF0000 = hi ++ 0#16) : hi ++ w.extractLsb' 0 16 = w := append_extractLsb'_of_and h
  simp only [opcodeMap, List.forall_mem_cons, List.not_mem_nil, false_imp_iff, implies_true, and_true]
  exact ⟨noField, noField, noField, (field5 ·), (field5 ·), noField, (field16 ·), (field5 ·), noField, (field16 ·), noField,
    (field8 ·), noField, (field16 ·)⟩

/-- Of all rows `ABSORB`'s alone puts `DIN` into its command (R61). -/
theorem dinOf_make (w : CmdWord) (din : Lane) :
    ∀ row ∈ opcodeMap, dinOf (row.make w din) = if row.op = 0x11 then din else 0 := by
  simp [opcodeMap, dinOf]

/-- Settles O2: the word matches the row that made the command, so the row gives both its word and its `DIN`. -/
theorem encodeOfDecodeIsTheWord : Obligations.EncodeOfDecodeIsTheWord := by
  intro w din i h
  obtain ⟨row, hrow, hmatch, rfl⟩ := exists_row_of_decode h
  refine ⟨encode_make_of_match w din row hrow hmatch, ?_⟩
  rw [opField_of_match hrow hmatch]
  exact dinOf_make w din row hrow

/-! `DIN` -/

/-- A row of another opcode than `ABSORB`'s makes the same command whatever `DIN` is (R61). -/
theorem make_congr_din (w : CmdWord) (din din' : Lane) :
    ∀ row ∈ opcodeMap, row.op ≠ 0x11 → row.make w din = row.make w din' := by
  simp [opcodeMap]

theorem decode_congr_din {w : CmdWord} (hop : opField w ≠ 0x11) (din din' : Lane) : decode w din = decode w din' := by
  unfold decode
  split
  · rfl
  next row hrow =>
    have hrop : row.op = opField w := by simpa using List.find?_some hrow
    rw [make_congr_din w din din' row (List.mem_of_find?_eq_some hrow) (hrop ▸ hop)]

/-- Settles O6: the port hands `DIN` to the decoder only. -/
theorem onlyAbsorbReadsDin : Obligations.OnlyAbsorbReadsDin := by
  intro s w din din' hop
  rw [runCommand, runCommand, decode_congr_din hop din din']

/-- The word of a command of another opcode than `ABSORB`'s decodes to it whatever `DIN` is. -/
theorem decode_encode_of_opField (i : Instr) (hop : opField (encode i) ≠ 0x11) (din : Lane) : decode (encode i) din = .ok i :=
  (decode_congr_din hop din (dinOf i)).trans (decodeOfEncodeIsTheCommand i)

/-- Settles O3: each word is that of the command beside it. -/
theorem exampleWordsDecodeAsListed : Obligations.ExampleWordsDecodeAsListed :=
  ⟨decode_encode_of_opField .theta (by decide), decode_encode_of_opField (.iota 3) (by decide),
    decode_encode_of_opField (.round 23) (by decide), decode_encode_of_opField .permute (by decide),
    decode_encode_of_opField (.init 256) (by decide), decode_encode_of_opField (.init 224) (by decide),
    decode_encode_of_opField (.init 384) (by decide), decode_encode_of_opField (.init 512) (by decide),
    decodeOfEncodeIsTheCommand (.absorb 16 0x8000000000000000), decode_encode_of_opField .absblk (by decide),
    decode_encode_of_opField (.squeeze 256) (by decide), decode_encode_of_opField .mclr (by decide),
    decode_encode_of_opField (.push 0x61) (by decide), decode_encode_of_opField .pad (by decide),
    decode_encode_of_opField (.hash 512) (by decide)⟩

/-! Illegal words -/

/-- A word is refused exactly when it matches no row of R58 (R60). -/
theorem decode_eq_error_iff {w : CmdWord} {din : Lane} :
    (∃ e, decode w din = .error e) ↔ ∀ row ∈ specRows, w &&& row.1 ≠ row.2 := by
  have hrows : specRows = opcodeMap.map fun row => (row.mask, row.pattern) := rfl
  rw [hrows, List.forall_mem_map]
  constructor
  · rintro ⟨e, he⟩ row hrow hmatch
    simp [decode_of_match hrow hmatch] at he
  · intro hno
    cases hd : decode w din with
    | error e => exact ⟨e, rfl⟩
    | ok i =>
      obtain ⟨row, hrow, hmatch, -⟩ := exists_row_of_decode hd
      exact absurd hmatch (hno row hrow)

/-- A running core records a word it cannot decode as illegal (R131). -/
theorem runCommand_of_error {s : State} {w : CmdWord} {din : Lane} {e : DecodeError} (he : s.err = 0)
    (hd : decode w din = .error e) : runCommand w din s = .next (s.setErr 1 w) := by
  rw [runCommand, whenRunning_of_running he, hd]; rfl

/-- Settles O4: the refused words are those that match no row, and the port records them. -/
theorem wordsMatchingNoRowRaiseIllegalCommand : Obligations.WordsMatchingNoRowRaiseIllegalCommand := by
  refine ⟨fun w din => decode_eq_error_iff, by simp [specRows], by simp [specRows], fun s w din rest he hin hno => ?_⟩
  obtain ⟨e, hd⟩ := decode_eq_error_iff (din := din).mpr hno
  calc step s = runCommand w din (s.setInput rest) := step_of_input hin
    _ = .next ((s.setInput rest).setErr 1 w) := runCommand_of_error he hd

/-! Commands that complete -/

theorem require_of_eq_true {ok : Bool} {f : FaultCode} {i : Instr} {s : State} {k : Host.Outcome State Fault Refusal} (h : ok = true) :
    require ok f i s k = k := by
  rw [h, require_of_true]

theorem whenLegalSize_of_legal {n : BitVec 16} {i : Instr} {s : State} {k : DigestSize → Host.Outcome State Fault Refusal}
    {d : DigestSize} (h : legalSize? n = some d) : whenLegalSize n i s k = k d := by
  simp [whenLegalSize, h]

theorem fromMessage_of_eq_some {o : Option State} {t : State} (h : o = some t) : fromMessage o = .next t := by
  simp [fromMessage, h]

/-- A running core in which a command passes all its tests makes the command's state change: the converse of `exec_outcome`. -/
theorem exec_of_completes {i : Instr} {s t : State} (he : s.err = 0) (hc : Completes s i t) : exec i s = .next t := by
  have hrun {k : Host.Outcome State Fault Refusal} : whenRunning s k = k := whenRunning_of_running he
  cases hc with
  | theta hcfg | rhopi hcfg | chi hcfg | permute hcfg => exact hrun.trans (whenConfigured_of_cfg hcfg)
  | iota hcfg hr | round hcfg hr => exact hrun.trans <| (whenConfigured_of_cfg hcfg).trans <| require_of_eq_true hr
  | init hd => exact hrun.trans (whenLegalSize_of_legal hd)
  | absorb hcfg hd hidx =>
    exact hrun.trans <| (whenConfigured_of_cfg hcfg).trans <| (withSize_of_size hd).trans <|
      require_of_eq_true (decide_eq_true hidx)
  | absblk hcfg hd hb ht =>
    exact hrun.trans <| (whenConfigured_of_cfg hcfg).trans <| (withSize_of_size hd).trans <|
      (require_of_eq_true (decide_eq_true hb)).trans <| fromMessage_of_eq_some ht
  | squeeze hcfg hn hd =>
    exact hrun.trans <| (whenConfigured_of_cfg hcfg).trans <| (require_of_eq_true (decide_eq_true hn)).trans <|
      withSize_of_size hd
  | mclr => exact hrun
  | push hf => exact hrun.trans (require_of_eq_true hf)
  | pad hcfg hd hf =>
    exact hrun.trans <| (whenConfigured_of_cfg hcfg).trans <| (withSize_of_size hd).trans <| require_of_eq_true hf
  | hash hd hf ht =>
    rw [paddedLength_eq, leastMultipleAbove] at hf
    exact hrun.trans <| (whenLegalSize_of_legal hd).trans <| (require_of_eq_true hf).trans <|
      fromMessage_of_eq_some ht

/-- A command that completes leaves `ERR` (R16). -/
theorem Completes.err_eq {i : Instr} {s t : State} (hc : Completes s i t) : t.err = s.err := by
  cases hc with
  | theta | rhopi | chi | iota | round | permute | init | absorb | squeeze | mclr | push => rfl
  | absblk hcfg hd hb ht =>
    obtain ⟨a, rfl⟩ := State.absorbedBlock_eq ht
    rfl
  | @pad d hcfg hd hf =>
    obtain ⟨m, hm, -⟩ := s.padded_eq d
    rw [hm]; rfl
  | hash hd hf ht =>
    obtain ⟨a, m, n, o, l, rfl, -⟩ := State.hashed_writes ht
    rfl

/-! Operand legality -/

/-- A command completes only with an operand value that is legal in some configuration (R53 to R55). -/
theorem Completes.wellFormed {i : Instr} {s t : State} (hc : Completes s i t) : i.wellFormed = true := by
  cases hc with
  | theta | rhopi | chi | permute | absblk | mclr | push | pad => rfl
  | iota hcfg hr | round hcfg hr => exact hr
  | init hd | hash hd => simp [Instr.wellFormed, hd]
  | absorb hcfg hd hidx => exact decide_eq_true (hidx.trans_le (rateLanes_le _))
  | squeeze hcfg hn hd => exact decide_eq_true (Nat.pos_of_ne_zero hn)

/-- A core in which every legal command completes: configured with the greatest rate, one whole block in the message and none absorbed,
and an unbounded buffer. -/
def oneBlockReady : State := (State.reset.initialised .s224).setMsg (Memory.ofBytes (List.replicate 144 0)) 144

theorem oneBlockReady_inv : oneBlockReady.inv :=
  State.inv_setMsg (State.inv_initialised _ resetMeetsTheInvariant) (Nat.zero_le _) rfl (Memory.holds_ofBytes (List.replicate 144 0))

/-- A command with a legal operand value completes in `oneBlockReady`. -/
theorem exists_completes_of_wellFormed {i : Instr} (h : i.wellFormed = true) : ∃ t, Completes oneBlockReady i t := by
  have hcfg : oneBlockReady.cfg = true := rfl
  have hsize : sizeOf? oneBlockReady = some .s224 := rfl
  have hfits (n : Nat) : fits oneBlockReady n = true := rfl
  have hblock : oneBlockReady.blk * rateBytes .s224 + rateBytes .s224 ≤ oneBlockReady.mlen := by decide
  have ⟨_, hmsg, _⟩ := oneBlockReady_inv
  cases i with
  | theta => exact ⟨_, .theta hcfg⟩
  | rhopi => exact ⟨_, .rhopi hcfg⟩
  | chi => exact ⟨_, .chi hcfg⟩
  | iota rnd => exact ⟨_, .iota hcfg h⟩
  | round rnd => exact ⟨_, .round hcfg h⟩
  | permute => exact ⟨_, .permute hcfg⟩
  | init size =>
    obtain ⟨d, hd⟩ := Option.isSome_iff_exists.mp h
    exact ⟨_, .init hd⟩
  | absorb idx din => exact ⟨_, .absorb hcfg hsize (of_decide_eq_true h)⟩
  | absblk =>
    obtain ⟨t, ht⟩ := Option.isSome_iff_exists.mp (State.absorbedBlock_isSome hblock hmsg)
    exact ⟨t, .absblk hcfg hsize hblock ht⟩
  | squeeze len => exact ⟨_, .squeeze hcfg (of_decide_eq_true h).ne' hsize⟩
  | mclr => exact ⟨_, .mclr⟩
  | push byte => exact ⟨_, .push (hfits _)⟩
  | pad => exact ⟨_, .pad hcfg hsize (hfits _)⟩
  | hash size =>
    obtain ⟨d, hd⟩ := Option.isSome_iff_exists.mp h
    obtain ⟨t, ht⟩ := Option.isSome_iff_exists.mp (State.hashed_isSome d hmsg)
    exact ⟨t, .hash hd (hfits _) ht⟩

/-- Settles O51: what completes has a legal operand, so the others fault, and `oneBlockReady` completes every legal command. -/
theorem illegalOperandsFaultAndLegalOnesComplete : Obligations.IllegalOperandsFaultAndLegalOnesComplete := by
  constructor
  · intro i s hill hinv he
    have ho := exec_outcome i he
    generalize exec i s = o at ho ⊢
    cases ho with
    | faulted f => exact ⟨f, rfl⟩
    | completed hc => simp [hc.wellFormed] at hill
    | stopped f hninv => exact absurd hinv hninv
  · intro i hlegal
    obtain ⟨t, hc⟩ := exists_completes_of_wellFormed hlegal
    have he : oneBlockReady.err = 0 := rfl
    exact ⟨oneBlockReady, t, oneBlockReady_inv, he, exec_of_completes he hc, hc.err_eq.trans he⟩

/-! `HASHB` -/

theorem execAll_cons_of_next {i : Instr} {is : List Instr} {s t : State} (h : exec i s = .next t) :
    execAll (i :: is) s = execAll is t := by
  rw [execAll, h]

theorem execAll_append_of_next {is js : List Instr} {s t : State} (h : execAll is s = .next t) :
    execAll (is ++ js) s = execAll js t := by
  induction is generalizing s with
  | nil => rw [← Host.Outcome.next.inj h]; rfl
  | cons i is ih =>
    rw [execAll] at h
    split at h
    next u hu => exact (execAll_cons_of_next hu).trans (ih h)
    · cases h
    · cases h

/-- The commands of `PUSHB` append their bytes, if the buffer holds them all (R63). -/
theorem execAll_pushB {bs : List Byte} {s : State} (he : s.err = 0) (hf : fits s (s.mlen + bs.length) = true) :
    execAll (pushB bs) s = .next (s.appendedAll bs) := by
  induction bs generalizing s with
  | nil => rfl
  | cons b bs ih =>
    have hpush : exec (.push b) s = .next (s.appended b) :=
      exec_of_completes he (.push (fits_mono hf (by rw [List.length_cons]; omega)))
    have hrest : fits (s.appended b) ((s.appended b).mlen + bs.length) = true := by
      rw [State.appended_mlen, Nat.add_assoc, Nat.add_comm 1]; exact hf
    exact (execAll_cons_of_next hpush).trans (ih he hrest)

/-- A byte sequence with its padding, what `PAD` makes of a message (R113). -/
def paddedBytes (d : DigestSize) (bs : List Byte) : List Byte := bs ++ padBytes (padCount d bs.length)

theorem length_paddedBytes (d : DigestSize) (bs : List Byte) : (paddedBytes d bs).length = leastMultipleAbove d bs.length := by
  rw [paddedBytes, List.length_append, length_padBytes (padCount_pos d _), ← paddedLength_eq]; rfl

/-- What `INIT` and `PAD` leave in a core with a whole message: `MSG` is the padded message (R112, R120). -/
theorem State.padded_initialised {s : State} (d : DigestSize) (h : s.messageInv) : (s.initialised d).padded d =
    (s.initialised d).setMsg (Memory.ofBytes (paddedBytes d s.msg.bytes)) (paddedBytes d s.msg.bytes).length := by
  rw [State.padded_of_messageInv (s := s.initialised d) d h, length_paddedBytes, paddedBytes, Memory.length_bytes_of_holds h]; rfl

/-- A digest is read out of one extraction (R93, R120). -/
theorem State.squeezed_digestBytes (s : State) (d : DigestSize) :
    s.squeezed d (digestBytes d) = (s.setLanes (permuteLanes s.lanes)).setOut
      (Memory.ofBytes ((laneBytes s.lanes (rateLanes d)).take (digestBytes d))) (BitVec.ofNat 13 (digestBytes d)) := by
  rw [State.squeezed_eq s d (digestBytes_pos d), squeezeTurns_of_le d (digestBytes_pos d) (digestBytes_le d)]
  simp [extractions]

/-- `INIT`, `PAD` and every `ABSBLK` in a core with a whole message absorb the padded message from the zero state (R120). -/
theorem State.absorbedMessage_of_messageInv {s : State} (d : DigestSize) (h : s.messageInv) :
    s.absorbedMessage d = some
      ((((s.initialised d).setMsg (Memory.ofBytes (paddedBytes d s.msg.bytes)) (paddedBytes d s.msg.bytes).length).setLanes
        (absorbBytes d ((paddedBytes d s.msg.bytes).length / rateBytes d) zeroLanes (paddedBytes d s.msg.bytes))).setBlk
        ((paddedBytes d s.msg.bytes).length / rateBytes d)) := by
  have hwhole := State.padded_messageInv (s := s.initialised d) d h
  rw [State.padded_initialised d h] at hwhole
  rw [State.absorbedMessage, State.padded_initialised d h,
    State.absorbedBlocks_of_messageInv d _ hwhole (by simpa using Nat.div_mul_le_self _ _)]
  simp

/-- What `HASH` leaves in a core with a whole message: `MSG` padded, every block counted, and the SHA3 digest of the message in `OUT`
(R120, R123). -/
theorem State.hashed_of_messageInv {s : State} (d : DigestSize) (h : s.messageInv) :
    ∃ a, s.hashed d = some
      (((((s.initialised d).setMsg (Memory.ofBytes (paddedBytes d s.msg.bytes)) (paddedBytes d s.msg.bytes).length).setLanes a).setBlk
        ((paddedBytes d s.msg.bytes).length / rateBytes d)).setOut
        (Memory.ofBytes (sha3 d s.msg.bytes)) (BitVec.ofNat 13 (digestBytes d))) := by
  rw [State.hashed, State.absorbedMessage_of_messageInv d h, Option.map_some, State.squeezed_digestBytes]
  exact ⟨_, rfl⟩

theorem toNat_ofNat_digestBytes (d : DigestSize) : (BitVec.ofNat 13 (digestBytes d)).toNat = sizeBits d / 8 := by cases d <;> rfl

/-- `HASH` in a running core whose message is whole and fits padded: no fault, and the SHA3 digest of the message in `OUT` (R120). -/
theorem exec_hash_of_messageInv {s : State} (d : DigestSize) (he : s.err = 0) (hm : s.messageInv)
    (hf : fits s (paddedLength d s.mlen) = true) :
    ∃ t, exec (.hash (sizeWord d)) s = .next t ∧ t.err = 0 ∧ t.out.bytes = sha3 d s.msg.bytes ∧ t.olen.toNat = sizeBits d / 8 := by
  obtain ⟨a, ht⟩ := State.hashed_of_messageInv d hm
  exact ⟨_, exec_of_completes he (.hash (legalSize?_sizeWord d) hf ht), he, Memory.bytes_ofBytes _, toNat_ofNat_digestBytes d⟩

/-- Settles O46: `MCLR` empties the message, the `PUSH`es leave exactly the bytes in it, and `HASH` leaves the digest of them. -/
theorem hashbComputesSha3FromAnyState : Obligations.HashbComputesSha3FromAnyState := by
  intro s d bs he hcap
  have hfits : fits s (paddedLength d bs.length) = true := fits_eq_true.mpr (by rwa [paddedLength_eq])
  have hmclr : exec .mclr s = .next ((s.setMsg [] 0).setBlk 0) := exec_of_completes he .mclr
  have hpush : execAll (pushB bs) ((s.setMsg [] 0).setBlk 0) = .next ((s.setMsg (Memory.ofBytes bs) bs.length).setBlk 0) := by
    have hroom : fits ((s.setMsg [] 0).setBlk 0) (0 + bs.length) = true := fits_mono (s := s) hfits (by simp [paddedLength])
    refine (execAll_pushB (s := (s.setMsg [] 0).setBlk 0) he hroom).trans ?_
    rw [State.appendedAll_of_messageInv bs rfl]
    simp [Memory.bytes, State.setMsg, State.setBlk]
  obtain ⟨t, hhash, ht, hout, holen⟩ := exec_hash_of_messageInv (s := (s.setMsg (Memory.ofBytes bs) bs.length).setBlk 0) d he
    (Memory.holds_ofBytes bs) hfits
  refine ⟨t, ?_, ht, hout.trans (congrArg (sha3 d) (Memory.bytes_ofBytes bs)), holen⟩
  calc execAll (hashB (sizeWord d) bs) s
      = execAll (pushB bs ++ [.hash (sizeWord d)]) ((s.setMsg [] 0).setBlk 0) := by rw [hashB, execAll_cons_of_next hmclr]
    _ = execAll [.hash (sizeWord d)] ((s.setMsg (Memory.ofBytes bs) bs.length).setBlk 0) := execAll_append_of_next hpush
    _ = .next t := execAll_cons_of_next hhash

end Sys2Proof.Machine
end

section
/-! PROOF. The permutation engine: the tables of round constants and rotation offsets, the four step functions, one round and the
permutation (40_permutation.md). -/

namespace Sys2Proof.Machine

/-! The tables -/

/-- Settles O23: the table against the 168 bits of the shift register, entry by entry. -/
theorem roundConstantsFollowTheShiftRegister : Obligations.RoundConstantsFollowTheShiftRegister := by
  unfold Obligations.RoundConstantsFollowTheShiftRegister
  decide

/-- Settles O24: the table against the 24 positions of the walk. -/
theorem rotationOffsetsFollowTheWalk : Obligations.RotationOffsetsFollowTheWalk :=
  ⟨rfl, by decide⟩

/-! Faults and words -/

/-- A running core that is not configured raises NotConfigured on each of the ten commands that read `A` or `SIZE` (R132). -/
theorem exec_of_not_cfg {i : Instr} {s : State} (hi : readsConfig i = true) (he : s.err = 0) (hc : s.cfg = false) :
    exec i s = .next (s.setErr 2 (encode i)) := by
  cases i with
  | theta | rhopi | chi | iota | round | permute | absorb | absblk | squeeze | pad =>
    exact (whenRunning_of_running he).trans (whenConfigured_of_not_cfg hc)
  | init | mclr | push | hash => cases hi

/-- A running, configured core raises IllegalRound on `IOTA` and `ROUND` with a round index from 24 on (R134). -/
theorem exec_of_illegalRound {rnd : BitVec 5} {i : Instr} {s : State} (hi : i = .iota rnd ∨ i = .round rnd) (he : s.err = 0)
    (hc : s.cfg = true) (hr : 24 ≤ rnd.toNat) : exec i s = .next (s.setErr 4 (encode i)) := by
  have hill : legalRound rnd = false := decide_eq_false hr.not_gt
  have htest {k : Host.Outcome State Fault Refusal} : require (legalRound rnd) .illegalRound i s k = .next (s.setErr 4 (encode i)) := by
    rw [hill, require_of_false]; rfl
  obtain rfl | rfl := hi
  all_goals exact (whenRunning_of_running he).trans <| (whenConfigured_of_cfg hc).trans htest

/-- A word is its upper field with zeros below it, plus its low field (R51). -/
theorem append_eq_add_setWidth {m n : Nat} (hi : BitVec m) (lo : BitVec n) :
    hi ++ lo = (hi ++ 0#n) + lo.setWidth (m + n) := by
  have hlo : lo.setWidth (m + n) = 0#m ++ lo := by
    apply BitVec.eq_of_toNat_eq
    have hlt : lo.toNat < 2 ^ (m + n) := lo.isLt.trans_le (Nat.pow_le_pow_right Nat.two_pos (Nat.le_add_left n m))
    simp [Nat.mod_eq_of_lt hlt]
  rw [hlo, BitVec.append_zero_add_zero_append]

/-! The step functions -/

/-- The lanes of theta, by the parities of the columns to the left and to the right (R73). -/
@[simp] theorem laneAt_thetaLanes (a : LaneArray) (r c : Fin 5) :
    laneAt (thetaLanes a) r c = laneAt a r c ^^^ (columnParity a (c + 4) ^^^ rotl64 (columnParity a (c + 1)) 1) := by
  simp [thetaLanes]

@[simp] theorem laneAt_rhoPiLanes (a : LaneArray) (r c : Fin 5) :
    laneAt (rhoPiLanes a) r c = rotl64 (laneAt a c (c + 3 * r)) (rotOffset c (c + 3 * r)) := by
  simp [rhoPiLanes]

@[simp] theorem laneAt_chiLanes (a : LaneArray) (r c : Fin 5) :
    laneAt (chiLanes a) r c = laneAt a r c ^^^ (~~~ laneAt a r (c + 1) &&& laneAt a r (c + 2)) := by
  simp [chiLanes]

@[simp] theorem laneAt_iotaLanes (rnd : Nat) (a : LaneArray) (r c : Fin 5) : laneAt (iotaLanes rnd a) r c =
    if r = 0 ∧ c = 0 then laneAt a 0 0 ^^^ roundConstant rnd else laneAt a r c := by
  simp [iotaLanes]

/-- The source column the model computes for the destination of row `r`, column `c` is `c` again (R74). -/
theorem sourceColumn_destinationRow : ∀ r c : Fin 5, r + 3 * (2 * c + 3 * r) = c := by decide

/-- The destination row of the source that the model computes for row `r'`, column `r` is `r'` again (R74). -/
theorem destinationRow_sourceColumn : ∀ r' r : Fin 5, 2 * (r + 3 * r') + 3 * r = r' := by decide

/-- Iota is its own inverse: the constant XORed in twice cancels (R76). -/
@[simp] theorem iotaLanes_iotaLanes (rnd : Nat) (a : LaneArray) : iotaLanes rnd (iotaLanes rnd a) = a := by
  refine lanes_ext fun r c => ?_
  by_cases h : r = 0 ∧ c = 0
  · obtain ⟨rfl, rfl⟩ := h
    simp
  · simp [h]

/-! The step commands -/

/-- Settles O25: `C` is the column parity, `D` the correction of theta's lanes. -/
theorem thetaCorrectsEveryLaneByItsColumn : Obligations.ThetaCorrectsEveryLaneByItsColumn :=
  ⟨rfl, fun s he => ⟨exec_of_not_cfg rfl he, fun hc =>
    ⟨thetaLanes s.lanes, columnParity s.lanes, fun c => columnParity s.lanes (c + 4) ^^^ rotl64 (columnParity s.lanes (c + 1)) 1,
      exec_of_completes he (.theta hc), fun _ => rfl, fun _ => rfl, laneAt_thetaLanes s.lanes⟩⟩⟩

/-- Settles O26: the model reads each lane from its source, and the source of a destination is where the lane came from. -/
theorem rhopiRotatesAndMovesEveryLane : Obligations.RhopiRotatesAndMovesEveryLane := by
  refine ⟨rfl, fun r' c' => ⟨c', c' + 3 * r', (destinationRow_sourceColumn r' c').symm, rfl⟩, fun s he =>
    ⟨exec_of_not_cfg rfl he, fun hc => ⟨rhoPiLanes s.lanes, exec_of_completes he (.rhopi hc), fun r c => ?_⟩⟩⟩
  rw [laneAt_rhoPiLanes, sourceColumn_destinationRow]

/-- Settles O27: the lanes of chi are given row by row. -/
theorem chiRecomputesEveryRow : Obligations.ChiRecomputesEveryRow :=
  ⟨rfl, fun s he => ⟨exec_of_not_cfg rfl he, fun hc =>
    ⟨chiLanes s.lanes, exec_of_completes he (.chi hc), laneAt_chiLanes s.lanes⟩⟩⟩

/-- Settles O28: the tests in their order, then iota's lanes at (0,0) and away from it. -/
theorem iotaXorsTheConstantIntoLaneZero : Obligations.IotaXorsTheConstantIntoLaneZero := by
  refine fun rnd => ⟨append_eq_add_setWidth (0x04#8 ++ 0#19) rnd, fun s he =>
    ⟨exec_of_not_cfg rfl he, exec_of_illegalRound (.inl rfl) he, fun hc hr => ?_⟩⟩
  exact ⟨iotaLanes rnd.toNat s.lanes, exec_of_completes he (.iota hc (decide_eq_true hr)), by simp, fun r c h => by simp [h]⟩

/-- Settles O29: two completed `IOTA`s leave the lanes of iota applied twice. -/
theorem iotaTwiceRestoresTheState : Obligations.IotaTwiceRestoresTheState := by
  intro rnd s he hc hr
  have hr : legalRound rnd = true := decide_eq_true hr
  calc execAll [.iota rnd, .iota rnd] s
      = execAll [.iota rnd] (s.setLanes (iotaLanes rnd.toNat s.lanes)) := execAll_cons_of_next (exec_of_completes he (.iota hc hr))
    _ = .next (s.setLanes (iotaLanes rnd.toNat (iotaLanes rnd.toNat s.lanes))) :=
      execAll_cons_of_next (exec_of_completes (s := s.setLanes _) he (.iota hc hr))
    _ = .next s := by rw [iotaLanes_iotaLanes, State.setLanes_self]

/-! Rounds and the permutation -/

/-- The four step commands in a running, configured core leave the lanes of one round (R77). -/
theorem execAll_stepCommands {rnd : BitVec 5} {s : State} (he : s.err = 0) (hc : s.cfg = true) (hr : legalRound rnd = true) :
    execAll [.theta, .rhopi, .chi, .iota rnd] s = .next (s.setLanes (roundLanes s.lanes rnd.toNat)) :=
  calc execAll [.theta, .rhopi, .chi, .iota rnd] s
      = execAll [.rhopi, .chi, .iota rnd] (s.setLanes (thetaLanes s.lanes)) :=
        execAll_cons_of_next (exec_of_completes he (.theta hc))
    _ = execAll [.chi, .iota rnd] (s.setLanes (rhoPiLanes (thetaLanes s.lanes))) :=
        execAll_cons_of_next (exec_of_completes (s := s.setLanes _) he (.rhopi hc))
    _ = execAll [.iota rnd] (s.setLanes (chiLanes (rhoPiLanes (thetaLanes s.lanes)))) :=
        execAll_cons_of_next (exec_of_completes (s := s.setLanes _) he (.chi hc))
    _ = .next (s.setLanes (roundLanes s.lanes rnd.toNat)) :=
        execAll_cons_of_next (exec_of_completes (s := s.setLanes _) he (.iota hc hr))

/-- Settles O30: `ROUND` completes with the lanes the four step commands leave. -/
theorem roundIsItsFourSteps : Obligations.RoundIsItsFourSteps := by
  refine fun rnd => ⟨append_eq_add_setWidth (0x05#8 ++ 0#19) rnd, fun s he =>
    ⟨exec_of_not_cfg rfl he, exec_of_illegalRound (.inr rfl) he, fun hc hr => ?_⟩⟩
  have hr : legalRound rnd = true := decide_eq_true hr
  exact ⟨roundLanes s.lanes rnd.toNat, exec_of_completes he (.round hc hr), execAll_stepCommands he hc hr⟩

/-- The lanes after the first `k` rounds of the permutation (R78). -/
def lanesAfterRounds (a : LaneArray) (k : Nat) : LaneArray := (List.range k).foldl roundLanes a

theorem lanesAfterRounds_zero (a : LaneArray) : lanesAfterRounds a 0 = a := rfl

theorem lanesAfterRounds_succ (a : LaneArray) (k : Nat) : lanesAfterRounds a (k + 1) = roundLanes (lanesAfterRounds a k) k := by
  rw [lanesAfterRounds, List.range_succ, List.foldl_concat, ← lanesAfterRounds]

theorem permuteLanes_eq (a : LaneArray) : permuteLanes a = lanesAfterRounds a 24 := rfl

/-- `ROUND k` in a running, configured core takes the lanes after `k` rounds to those after `k + 1` (R77, R78). -/
theorem exec_round_lanesAfterRounds {s : State} (he : s.err = 0) (hc : s.cfg = true) {k : Nat} (hk : k < 24) (a : LaneArray) :
    exec (.round (BitVec.ofNat 5 k)) (s.setLanes (lanesAfterRounds a k)) = .next (s.setLanes (lanesAfterRounds a (k + 1))) := by
  have hrnd : (BitVec.ofNat 5 k).toNat = k := (BitVec.toNat_ofNat k 5).trans (Nat.mod_eq_of_lt (by omega))
  have hr : legalRound (BitVec.ofNat 5 k) = true := decide_eq_true (hrnd.symm ▸ hk)
  have hround := exec_of_completes (s := s.setLanes (lanesAfterRounds a k)) he (.round hc hr)
  rwa [hrnd, State.setLanes_lanes, ← lanesAfterRounds_succ] at hround

/-- Settles O31: the lane arrays are those after `k` rounds, and the permutation is the one after 24. -/
theorem permuteIsTwentyFourRounds : Obligations.PermuteIsTwentyFourRounds :=
  ⟨rfl, fun s he => ⟨exec_of_not_cfg rfl he, fun hc =>
    ⟨lanesAfterRounds s.lanes, lanesAfterRounds_zero s.lanes,
      permuteLanes_eq s.lanes ▸ exec_of_completes he (.permute hc), fun _ hk => exec_round_lanesAfterRounds he hc hk s.lanes⟩⟩⟩

end Sys2Proof.Machine
end

section
/-! PROOF. The sponge engine: INIT, ABSORB, ABSBLK, SQUEEZE (41_sponge.md). -/

namespace Sys2Proof.Machine

/-! Faults -/

/-- A running core raises IllegalSize on `INIT` and `HASH` with a number that is no digest size (R133). -/
theorem exec_of_illegalSize {size : BitVec 16} {i : Instr} {s : State} (hi : i = .init size ∨ i = .hash size) (he : s.err = 0)
    (hsize : legalSize? size = none) : exec i s = .next (s.setErr 3 (encode i)) := by
  have htest {k : DigestSize → Host.Outcome State Fault Refusal} : whenLegalSize size i s k = .next (s.setErr 3 (encode i)) := by
    rw [whenLegalSize, hsize]; rfl
  obtain rfl | rfl := hi
  all_goals exact (whenRunning_of_running he).trans htest

/-- A test that fails raises its fault (R139). -/
theorem require_of_eq_false {ok : Bool} {f : FaultCode} {i : Instr} {s : State} {k : Host.Outcome State Fault Refusal}
    (h : ok = false) : require ok f i s k = .next (s.setErr (faultCode f) (encode i)) := by
  rw [h, require_of_false]; rfl

section Configured
variable {s : State} {d : DigestSize}

/-- A running, configured core raises IllegalLaneIndex on `ABSORB` with an index that is no rate lane's (R135). -/
theorem exec_absorb_of_illegalLaneIndex {idx : BitVec 5} (din : Lane) (he : s.err = 0) (hc : s.cfg = true) (hd : sizeOf? s = some d)
    (hidx : rateLanes d ≤ idx.toNat) : exec (.absorb idx din) s = .next (s.setErr 5 (encode (.absorb idx din))) :=
  (whenRunning_of_running he).trans <| (whenConfigured_of_cfg hc).trans <| (withSize_of_size hd).trans <|
    require_of_eq_false (decide_eq_false hidx.not_gt)

/-- A running, configured core raises BufferUnderrun on `ABSBLK` when the block at `BLK` is not wholly inside `MSG` (R137). -/
theorem exec_absblk_of_bufferUnderrun (he : s.err = 0) (hc : s.cfg = true) (hd : sizeOf? s = some d)
    (hblk : s.mlen < s.blk * rateBytes d + rateBytes d) : exec .absblk s = .next (s.setErr 7 0x12000000) :=
  (whenRunning_of_running he).trans <| (whenConfigured_of_cfg hc).trans <| (withSize_of_size hd).trans <|
    require_of_eq_false (decide_eq_false hblk.not_ge)

/-- A running, configured core raises IllegalLength on `SQUEEZE` of no whole byte (R136). -/
theorem exec_squeeze_of_illegalLength {len : BitVec 16} (he : s.err = 0) (hc : s.cfg = true) (hlen : squeezeBytes len = 0) :
    exec (.squeeze len) s = .next (s.setErr 6 (encode (.squeeze len))) :=
  (whenRunning_of_running he).trans <| (whenConfigured_of_cfg hc).trans <| require_of_eq_false (by simp [hlen])

end Configured

/-! `INIT` -/

/-- Settles O32: a legal operand is the word of its size, so the state `INIT` completes with holds it in `SIZE`. -/
theorem initZeroesTheLanesAndSelectsTheSize : Obligations.InitZeroesTheLanesAndSelectsTheSize := by
  refine ⟨laneAt_zeroLanes, fun size => ⟨append_eq_add_setWidth (0x10#8 ++ 0#8) size, fun s he => ?_⟩⟩
  refine ⟨fun hlegal => ?_, fun hill => ?_⟩
  · obtain ⟨d, hd⟩ := Option.ne_none_iff_exists'.mp fun hnone => legalSize?_eq_none.mp hnone hlegal
    obtain rfl := legalSize?_eq_some.mp hd
    exact exec_of_completes he (.init hd)
  · exact exec_of_illegalSize (.inl rfl) he (legalSize?_eq_none.mpr hill)

/-! `ABSORB` -/

/-- The position a flat index names (R11). -/
theorem flatIndex_eq_iff {r c : Fin 5} {i : Nat} : flatIndex r c = i ↔ r.val = i / 5 ∧ c.val = i % 5 := by
  simp only [flatIndex]; omega

/-- Absorbing a word into lane `i` leaves every other lane (R91). -/
theorem laneAt_xorLane (a : LaneArray) {i : Nat} (hi : i < 25) (w : Lane) (r c : Fin 5) :
    laneAt (xorLane a i w) r c = if flatIndex r c = i then laneAt a r c ^^^ w else laneAt a r c := by
  rw [xorLane, laneAt_setLane]
  by_cases h : flatIndex r c = i
  · subst h; simp
  · rw [if_neg h, if_neg]
    rintro ⟨rfl, rfl⟩
    exact h (flatIndex_rowOf_colOf hi)

/-- Every rate lane is one of the 25. -/
theorem lt_of_lt_rateLanes {d : DigestSize} {i : Nat} (h : i < rateLanes d) : i < 25 :=
  (h.trans_le (rateLanes_le d)).trans (by decide)

/-- Settles O33: the tests in their order, then the lane at the index's position and the others. -/
theorem absorbXorsOneRateLane : Obligations.AbsorbXorsOneRateLane := by
  refine fun idx din => ⟨append_eq_add_setWidth (0x11#8 ++ 0#19) idx, fun s d he hsize => ?_⟩
  have hd : sizeOf? s = some d := sizeOf?_eq_some.mpr hsize
  refine ⟨exec_of_not_cfg rfl he, fun hc => exec_absorb_of_illegalLaneIndex din he hc hd, fun hc hidx => ?_⟩
  refine ⟨xorLane s.lanes idx.toNat din, exec_of_completes he (.absorb hc hd hidx), fun r c => ?_⟩
  simp only [laneAt_xorLane s.lanes (lt_of_lt_rateLanes hidx), flatIndex_eq_iff]

/-! `ABSBLK` -/

/-- Absorbing `n` words XORs word `j` into lane `j` and leaves the lanes from `n` on (R92, R95). -/
theorem laneAt_xorWords_range (a : LaneArray) (w : Nat → Lane) (n : Nat) (r c : Fin 5) :
    laneAt (xorWords a ((List.range n).map w)) r c =
      if flatIndex r c < n then laneAt a r c ^^^ w (flatIndex r c) else laneAt a r c := by
  rw [xorWords, laneAt_lanesOf, List.getD_eq_getElem?_getD]
  split <;> simp [*]

/-- Absorbing one word more is absorbing it into the next lane (R91, R92). -/
theorem xorWords_range_succ (a : LaneArray) (w : Nat → Lane) {n : Nat} (hn : n < 25) :
    xorWords a ((List.range (n + 1)).map w) = xorLane (xorWords a ((List.range n).map w)) n (w n) := by
  refine lanes_ext fun r c => ?_
  rw [laneAt_xorLane _ hn, laneAt_xorWords_range, laneAt_xorWords_range]
  rcases lt_trichotomy (flatIndex r c) n with h | h | h
  · rw [if_pos (by omega), if_neg (by omega), if_pos h]
  · rw [if_pos (by omega), if_pos h, if_neg (by omega), h]
  · rw [if_neg (by omega), if_neg (by omega), if_neg (by omega)]

/-- `ABSBLK` on a block whose words are `w 0`, `w 1`, ... (R92). -/
theorem State.absorbedBlock_of_readWord {s : State} {d : DigestSize} {w : Nat → Lane}
    (h : ∀ j, j < rateLanes d → s.msg.readWord (s.blk * rateBytes d + 8 * j) = some (w j)) :
    s.absorbedBlock d =
      some ((s.setLanes (permuteLanes (xorWords s.lanes ((List.range (rateLanes d)).map w)))).setBlk (s.blk + 1)) := by
  have hwords : s.msg.readWords (wordAddress d s.blk 0) (rateLanes d) = some ((List.range (rateLanes d)).map w) :=
    Memory.readWords_eq_some.mpr ⟨by simp, fun j hj => (h j hj).trans (by simp [hj])⟩
  rw [State.absorbedBlock, hwords]

/-- A running, configured core with a whole block at `BLK` whose words are `w 0`, `w 1`, ... completes `ABSBLK` (R92). -/
theorem exec_absblk_of_readWord {s : State} {d : DigestSize} {w : Nat → Lane} (he : s.err = 0) (hc : s.cfg = true)
    (hd : sizeOf? s = some d) (hblk : s.blk * rateBytes d + rateBytes d ≤ s.mlen)
    (hw : ∀ j, j < rateLanes d → s.msg.readWord (s.blk * rateBytes d + 8 * j) = some (w j)) :
    exec .absblk s =
      .next ((s.setLanes (permuteLanes (xorWords s.lanes ((List.range (rateLanes d)).map w)))).setBlk (s.blk + 1)) :=
  exec_of_completes he (.absblk hc hd hblk (State.absorbedBlock_of_readWord hw))

/-- In a whole message every word of a present block exists (R18, R92). -/
theorem State.exists_words_of_messageInv {s : State} {d : DigestSize} (h : s.messageInv)
    (hblk : s.blk * rateBytes d + rateBytes d ≤ s.mlen) :
    ∃ w : Nat → Lane, ∀ j, j < rateLanes d → s.msg.readWord (s.blk * rateBytes d + 8 * j) = some (w j) := by
  refine ⟨fun j => le64 ((s.msg.bytes.drop (s.blk * rateBytes d + 8 * j)).take 8), fun j hj => ?_⟩
  conv_lhs => rw [Memory.eq_ofBytes_of_holds h]
  apply Memory.readWord_ofBytes
  rw [Memory.length_bytes_of_holds h]
  have := rateBytes_eq d
  omega

/-- Settles O34: the words exist because the message is whole, and lane `j` takes word `j` of the block. -/
theorem absblkAbsorbsTheBlockAtBlk : Obligations.AbsblkAbsorbsTheBlockAtBlk := by
  refine ⟨rfl, fun s d he hsize hmsg => ?_⟩
  have hd : sizeOf? s = some d := sizeOf?_eq_some.mpr hsize
  rw [Nat.succ_mul]
  refine ⟨exec_of_not_cfg rfl he, fun hc => exec_absblk_of_bufferUnderrun he hc hd, fun hc hblk => ?_⟩
  obtain ⟨w, hw⟩ := State.exists_words_of_messageInv hmsg hblk
  exact ⟨w, xorWords s.lanes ((List.range (rateLanes d)).map w), hw, laneAt_xorWords_range s.lanes w (rateLanes d),
    exec_absblk_of_readWord he hc hd hblk hw⟩

/-- `ABSORB 0` to `ABSORB n - 1` of a running, configured core absorb `n` words (R91). -/
theorem execAll_absorbs {s : State} {d : DigestSize} (w : Nat → Lane) (he : s.err = 0) (hc : s.cfg = true)
    (hd : sizeOf? s = some d) {n : Nat} (hn : n ≤ rateLanes d) :
    execAll ((List.range n).map fun j => Instr.absorb (BitVec.ofNat 5 j) (w j)) s =
      .next (s.setLanes (xorWords s.lanes ((List.range n).map w))) := by
  induction n with
  | zero =>
    have hnone : xorWords s.lanes [] = s.lanes := lanes_ext fun r c => laneAt_xorWords_range s.lanes w 0 r c
    simp [execAll, hnone]
  | succ n ih =>
    have hn25 : n < 25 := lt_of_lt_rateLanes hn
    have hidx : (BitVec.ofNat 5 n).toNat = n := (BitVec.toNat_ofNat n 5).trans (Nat.mod_eq_of_lt (by omega))
    have hlast := exec_of_completes (s := s.setLanes (xorWords s.lanes ((List.range n).map w))) he
      (.absorb (idx := BitVec.ofNat 5 n) (din := w n) hc hd (hidx.trans_lt hn))
    rw [hidx, State.setLanes_lanes, ← xorWords_range_succ s.lanes w hn25] at hlast
    rw [List.range_succ, List.map_append, execAll_append_of_next (ih (by omega)), ← List.range_succ]
    exact execAll_cons_of_next hlast

/-- Settles O35: the `ABSORB`s leave the lanes with the block's words in them, which `PERMUTE` permutes as `ABSBLK` does. -/
theorem absblkEqualsAbsorbsThenPermute : Obligations.AbsblkEqualsAbsorbsThenPermute := by
  intro s d w he hc hsize hblk hw
  rw [Nat.succ_mul] at hblk
  have hd : sizeOf? s = some d := sizeOf?_eq_some.mpr hsize
  refine ⟨s.setLanes (permuteLanes (xorWords s.lanes ((List.range (rateLanes d)).map w))), ?_,
    exec_absblk_of_readWord he hc hd hblk hw⟩
  rw [execAll_append_of_next (execAll_absorbs w he hc hd le_rfl)]
  exact execAll_cons_of_next (exec_of_completes (s := s.setLanes _) he (.permute hc))

/-! `SQUEEZE` -/

/-- `OLEN` can hold every length `SQUEEZE` can ask for (R93). -/
theorem toNat_ofNat_squeezeBytes (len : BitVec 16) : (BitVec.ofNat 13 (squeezeBytes len)).toNat = squeezeBytes len :=
  (BitVec.toNat_ofNat ..).trans (Nat.mod_eq_of_lt (Nat.lt_succ_of_le (squeezeBytes_le len)))

/-- The bytes `SQUEEZE` leaves in `OUT`: those of the extractions, up to the number asked for (R93). -/
theorem read_squeezed_out (d : DigestSize) (need : Nat) (a : LaneArray) (k : Nat) :
    (Memory.ofBytes ((extractions d (squeezeTurns d need) a).take need)).read k =
      if k < need then
        some ((flatLane (permuteLanes^[k / rateBytes d] a) (k % rateBytes d / 8)).extractLsb' (8 * (k % 8)) 8)
      else none := by
  rw [Memory.read_ofBytes, List.getElem?_take]
  split
  next hk => exact getElem?_extractions d _ a (hk.trans_le (le_squeezeTurns_mul d need))
  · rfl

/-- Settles O36: the tests in their order, then the closed form of the squeeze loop, byte by byte. -/
theorem squeezeExtractsAndPermutes : Obligations.SqueezeExtractsAndPermutes := by
  refine fun len => ⟨append_eq_add_setWidth (0x13#8 ++ 0#8) len, fun s d he hsize => ?_⟩
  refine ⟨exec_of_not_cfg rfl he, fun hc hlen => exec_squeeze_of_illegalLength he hc (Nat.div_eq_of_lt hlen), fun hc hlen => ?_⟩
  have hpos : 0 < squeezeBytes len := Nat.div_pos hlen (by decide)
  have hexec := exec_of_completes he (.squeeze hc hpos.ne' (sizeOf?_eq_some.mpr hsize))
  rw [State.squeezed_eq s d hpos] at hexec
  exact ⟨_, _, toNat_ofNat_squeezeBytes len, hexec, read_squeezed_out d (squeezeBytes len) s.lanes⟩

/-- An extraction reads the first `n` lanes only (R93, R95). -/
theorem laneBytes_congr {a b : LaneArray} {n : Nat} (h : ∀ i, i < n → flatLane a i = flatLane b i) : laneBytes a n = laneBytes b n := by
  induction n with
  | zero => rfl
  | succ n ih => rw [laneBytes_succ, laneBytes_succ, ih fun i hi => h i (by omega), h n (by omega)]

/-- A request of at most a block is one extraction from the lanes as they stand (R93). -/
theorem State.squeezed_of_le_rateBytes (s : State) {d : DigestSize} {need : Nat} (hpos : 0 < need) (hle : need ≤ rateBytes d) :
    s.squeezed d need = (s.setLanes (permuteLanes s.lanes)).setOut
      (Memory.ofBytes ((laneBytes s.lanes (rateLanes d)).take need)) (BitVec.ofNat 13 need) := by
  rw [State.squeezed_eq s d hpos, squeezeTurns_of_le d hpos hle]
  simp [extractions]

/-- Settles O37: a request of no byte faults on both sides, and one extraction reads rate lanes only, on which both sides agree. -/
theorem capacityLanesAreNeverReadOut : Obligations.CapacityLanesAreNeverReadOut := by
  intro s t t' d len a he hc hsize hle hrate ht ht'
  rcases Nat.eq_zero_or_pos (squeezeBytes len) with hzero | hpos
  · rw [exec_squeeze_of_illegalLength he hc hzero] at ht
    rw [exec_squeeze_of_illegalLength (s := s.setLanes a) he hc hzero] at ht'
    obtain rfl := Host.Outcome.next.inj ht
    obtain rfl := Host.Outcome.next.inj ht'
    exact ⟨rfl, rfl⟩
  · have hd : sizeOf? s = some d := sizeOf?_eq_some.mpr hsize
    rw [exec_of_completes he (.squeeze hc hpos.ne' hd), State.squeezed_of_le_rateBytes s hpos hle] at ht
    rw [exec_of_completes (s := s.setLanes a) he (.squeeze hc hpos.ne' hd),
      State.squeezed_of_le_rateBytes (s.setLanes a) hpos hle, State.setLanes_lanes, laneBytes_congr hrate] at ht'
    obtain rfl := Host.Outcome.next.inj ht
    obtain rfl := Host.Outcome.next.inj ht'
    simp only [State.setOut_out, State.setOut_olen, and_self]

end Sys2Proof.Machine
end

section
/-! PROOF. The padding engine and the message buffer: MCLR, PUSH, PAD (42_padding.md). -/

namespace Sys2Proof.Machine

/-! Buffer overflow -/

section Overflow
variable {s : State} (he : s.err = 0)
include he

/-- A running core raises BufferOverflow on `PUSH` when one byte more passes the capacity (R138). -/
theorem exec_push_of_bufferOverflow (byte : Byte) (hcap : exceedsCap s (s.mlen + 1)) :
    exec (.push byte) s = .next (s.setErr 8 (encode (.push byte))) :=
  (whenRunning_of_running he).trans <| require_of_eq_false (fits_eq_false.mpr hcap)

/-- A running, configured core raises BufferOverflow on `PAD` when the padded length passes the capacity (R138). -/
theorem exec_pad_of_bufferOverflow {d : DigestSize} (hc : s.cfg = true) (hd : sizeOf? s = some d)
    (hcap : exceedsCap s (paddedLength d s.mlen)) : exec .pad s = .next (s.setErr 8 0x22000000) :=
  (whenRunning_of_running he).trans <| (whenConfigured_of_cfg hc).trans <| (withSize_of_size hd).trans <|
    require_of_eq_false (fits_eq_false.mpr hcap)

end Overflow

/-! `MCLR` -/

/-- Settles O38: `MCLR` has no test but that of `ERR`, and completes. -/
theorem mclrEmptiesTheMessage : Obligations.MclrEmptiesTheMessage :=
  ⟨rfl, fun _ he => exec_of_completes he .mclr⟩

/-! `PUSH` -/

/-- A write changes what is read at its own address only. -/
theorem Memory.read_write (m : Memory) (k k' : Nat) (v : Byte) :
    (m.write k v).read k' = if k' = k then some v else m.read k' := by
  split
  next h => rw [h, Memory.read_write_same]
  next h => exact Memory.read_write_other m v h

/-- Settles O39: the capacity test, then one write at `MLEN`. -/
theorem pushAppendsOneByte : Obligations.PushAppendsOneByte :=
  fun byte => ⟨append_eq_add_setWidth (0x21#8 ++ 0#16) byte, fun s he =>
    ⟨exec_push_of_bufferOverflow he byte, fun hcap =>
      ⟨s.msg.write s.mlen byte, exec_of_completes he (.push (fits_eq_true.mpr hcap)),
        fun k => Memory.read_write s.msg s.mlen k byte⟩⟩⟩

/-! `PAD` -/

/-- The bytes of the padding: the merged byte alone, or the domain byte, zeros and the final byte (R112). -/
theorem getElem?_padBytes {q j : Nat} (hj : j < q) :
    (padBytes q)[j]? =
      if q = 1 then some mergedByte else if j = 0 then some domainByte else if j = q - 1 then some finalByte else some 0 := by
  unfold padBytes
  split
  next hone =>
    obtain rfl : j = 0 := by omega
    rfl
  next hone =>
    cases j with
    | zero => rfl
    | succ j =>
      rw [List.getElem?_cons_succ, if_neg j.succ_ne_zero]
      split
      next hlast => simp [show j = q - 2 by omega]
      next hmid =>
        have hzero : j < q - 2 := by omega
        rw [List.getElem?_append_left (by simpa using hzero), List.getElem?_replicate, if_pos hzero]

/-- Padding is one byte exactly when one byte is missing to the next block: the test of R112, by `mod` (conflict C2). -/
theorem padCount_eq_one_iff {d : DigestSize} {n : Nat} : padCount d n = 1 ↔ n % rateBytes d = rateBytes d - 1 := by
  have hpos := rateBytes_pos d
  unfold padCount
  omega

/-- `PAD` writes the bytes of the padding from `MLEN` on, and nothing else (R112). -/
theorem State.exists_padded_eq (s : State) (d : DigestSize) :
    ∃ m, s.padded d = s.setMsg m (s.mlen + padCount d s.mlen) ∧ ∀ k, m.read k =
      if s.mlen ≤ k ∧ k < s.mlen + padCount d s.mlen then (padBytes (padCount d s.mlen))[k - s.mlen]? else s.msg.read k := by
  have happ := s.appendedAll_eq (padBytes (padCount d s.mlen))
  rwa [length_padBytes (padCount_pos d _)] at happ

/-- Settles O40: the tests in their order, then the appended bytes, the one at address `k` being byte `k - MLEN` of the padding. -/
theorem padAppendsTheDomainZerosAndFinalByte : Obligations.PadAppendsTheDomainZerosAndFinalByte := by
  refine ⟨rfl, fun s d q he hsize hq => ?_⟩
  obtain rfl : q = padCount d s.mlen := hq
  have hd : sizeOf? s = some d := sizeOf?_eq_some.mpr hsize
  refine ⟨exec_of_not_cfg rfl he, fun hc hcap => exec_pad_of_bufferOverflow he hc hd hcap, fun hc hcap => ?_⟩
  obtain ⟨m, hm, hread⟩ := s.exists_padded_eq d
  refine ⟨m, hm ▸ exec_of_completes he (.pad hc hd (fits_eq_true.mpr hcap)), fun k => ?_⟩
  rw [hread]
  by_cases hk : s.mlen ≤ k ∧ k < s.mlen + padCount d s.mlen
  · obtain ⟨hge, hlt⟩ := hk
    have hfirst : k - s.mlen = 0 ↔ k = s.mlen := by omega
    have hlast : k - s.mlen = padCount d s.mlen - 1 ↔ k = s.mlen + padCount d s.mlen - 1 := by omega
    rw [if_pos ⟨hge, hlt⟩, if_neg (by omega), getElem?_padBytes (by omega)]
    simp only [padCount_eq_one_iff, hfirst, hlast]
    rfl
  · rw [if_neg hk, if_pos (by omega)]

/-! The padded length -/

/-- The length after padding is what its name says: of the multiples of `rate_bytes` above `n`, the least (R113). -/
theorem isLeast_leastMultipleAbove (d : DigestSize) (n : Nat) :
    IsLeast {k | rateBytes d ∣ k ∧ n < k} (leastMultipleAbove d n) := by
  refine ⟨⟨Nat.dvd_mul_right _ _, Nat.lt_mul_div_succ n (rateBytes_pos d)⟩, ?_⟩
  rintro _ ⟨⟨c, rfl⟩, hlt⟩
  exact Nat.mul_le_mul_left _ (Nat.div_lt_of_lt_mul hlt)

/-- A `PAD` that completes leaves in `MLEN` the least multiple of `rate_bytes` above the length before (R113). -/
theorem Completes.mlen_pad {s t : State} {d : DigestSize} (hc : Completes s .pad t) (hd : sizeOf? s = some d) :
    t.mlen = leastMultipleAbove d s.mlen := by
  rw [hc.mlen_eq nofun, storedCount, hd]
  exact paddedLength_eq d s.mlen

/-- Settles O41: a `PAD` that leaves `ERR = 0` in a running core did not fault, so it completed. -/
theorem paddedLengthIsTheLeastMultipleAbove : Obligations.PaddedLengthIsTheLeastMultipleAbove := by
  intro s t d he _ hsize hexec ht
  rcases exec_next hexec with ⟨hne, -⟩ | ⟨-, f, rfl⟩ | ⟨-, hc⟩
  · exact absurd he hne
  · exact absurd ht (faultCode_ne_zero f)
  · rw [hc.mlen_pad (sizeOf?_eq_some.mpr hsize)]
    obtain ⟨⟨hdvd, hlt⟩, hleast⟩ := isLeast_leastMultipleAbove d s.mlen
    exact ⟨hdvd, hlt, fun n hn hlt' => hleast ⟨hn, hlt'⟩⟩

end Sys2Proof.Machine
end

section
/-! PROOF. The top-level routine HASH: the command sequence it stands for, its digest, its independence of earlier contents, its faults;
and the rendering HEX (43_hash.md). -/

namespace Sys2Proof.Machine

/-! Completion -/

/-- `HASH` of a legal size in a running core whose message is whole and fits padded makes its state change (R120). -/
theorem exec_hash_of_fits {s : State} {d : DigestSize} (he : s.err = 0) (hm : s.messageInv)
    (hcap : ¬ exceedsCap s (leastMultipleAbove d s.mlen)) :
    ∃ t, s.hashed d = some t ∧ exec (.hash (sizeWord d)) s = .next t := by
  obtain ⟨t, ht⟩ := Option.isSome_iff_exists.mp (State.hashed_isSome d hm)
  rw [← paddedLength_eq, ← fits_eq_true] at hcap
  exact ⟨t, ht, exec_of_completes he (.hash (legalSize?_sizeWord d) hcap ht)⟩

/-! The command sequence -/

/-- The padded length is one block more than the whole blocks of the message (R113, R120). -/
theorem leastMultipleAbove_div_rateBytes (d : DigestSize) (n : Nat) : leastMultipleAbove d n / rateBytes d = n / rateBytes d + 1 :=
  Nat.mul_div_cancel_left _ (rateBytes_pos d)

/-- `n` `ABSBLK`s of a running, configured core whose next `n` blocks are present absorb them one after the other (R92, R120). -/
theorem execAll_absblks {d : DigestSize} {n : Nat} {s t : State} (he : s.err = 0) (hc : s.cfg = true) (hd : sizeOf? s = some d)
    (hblk : (s.blk + n) * rateBytes d ≤ s.mlen) (ht : State.absorbedBlocks d n s = some t) :
    execAll (List.replicate n .absblk) s = .next t := by
  induction n generalizing s with
  | zero => exact congrArg Host.Outcome.next (Option.some.inj ht)
  | succ n ih =>
    simp only [State.absorbedBlocks] at ht
    split at ht
    · cases ht
    next u hu =>
      have hfirst : s.blk * rateBytes d + rateBytes d ≤ s.mlen := by
        rw [← Nat.succ_mul]
        exact (Nat.mul_le_mul_right _ (by omega)).trans hblk
      have hexec : exec .absblk s = .next u := exec_of_completes he (.absblk hc hd hfirst hu)
      obtain ⟨a, rfl⟩ := State.absorbedBlock_eq hu
      rw [List.replicate_succ, execAll_cons_of_next hexec]
      exact ih he hc hd (by rwa [State.setBlk_blk, Nat.add_assoc, Nat.add_comm 1]) ht

/-- `INIT`, `PAD` and an `ABSBLK` for every block absorb the message: none of the three faults when the padded message fits
(R120, R121). -/
theorem execAll_absorbedMessage {s u : State} {d : DigestSize} (he : s.err = 0)
    (hcap : ¬ exceedsCap s (leastMultipleAbove d s.mlen)) (hu : s.absorbedMessage d = some u) :
    execAll (.init (sizeWord d) :: .pad :: List.replicate (s.mlen / rateBytes d + 1) .absblk) s = .next u := by
  have hinit : exec (.init (sizeWord d)) s = .next (s.initialised d) := exec_of_completes he (.init (legalSize?_sizeWord d))
  have hpad : exec .pad (s.initialised d) = .next ((s.initialised d).padded d) :=
    exec_of_completes (s := s.initialised d) he (.pad rfl (legalSize?_sizeWord d) (fits_eq_true.mpr (by rwa [paddedLength_eq])))
  rw [execAll_cons_of_next hinit, execAll_cons_of_next hpad]
  obtain ⟨m, hm, -⟩ := (s.initialised d).padded_eq d
  rw [State.absorbedMessage, hm, paddedLength_eq] at hu
  rw [State.setMsg_mlen, State.initialised_mlen, leastMultipleAbove_div_rateBytes] at hu
  rw [hm, paddedLength_eq]
  refine execAll_absblks he rfl (legalSize?_sizeWord d) ?_ hu
  rw [State.setMsg_blk, State.initialised_blk, Nat.zero_add, Nat.mul_comm]
  exact le_rfl

/-- `INIT`, `PAD` and the `ABSBLK`s leave what `INIT` writes, but for `MSG`, the lanes and `BLK` (R120). -/
theorem State.absorbedMessage_eq {s u : State} {d : DigestSize} (h : s.absorbedMessage d = some u) :
    ∃ m l a n, u = (((s.initialised d).setMsg m l).setLanes a).setBlk n := by
  obtain ⟨a, rfl⟩ := State.absorbedBlocks_eq h
  obtain ⟨m, hm, -⟩ := (s.initialised d).padded_eq d
  rw [hm]
  exact ⟨m, _, a, _, rfl⟩

/-- Settles O42: the sequence up to the last `ABSBLK` leaves the absorbed message, from which both sides squeeze the digest. -/
theorem hashIsInitPadAbsorbSqueeze : Obligations.HashIsInitPadAbsorbSqueeze := by
  intro s d he hm hcap
  obtain ⟨t, ht, hhash⟩ := exec_hash_of_fits he hm hcap
  refine ⟨t, hhash, ?_⟩
  obtain ⟨u, hu, rfl⟩ := Option.map_eq_some_iff.mp ht
  refine (execAll_append_of_next (execAll_absorbedMessage he hcap hu)).trans (execAll_cons_of_next ?_)
  obtain ⟨m, l, a, n, rfl⟩ := State.absorbedMessage_eq hu
  have hpos : squeezeBytes (sizeWord d) ≠ 0 := squeezeBytes_sizeWord d ▸ (digestBytes_pos d).ne'
  rw [← squeezeBytes_sizeWord]
  exact exec_of_completes he (.squeeze rfl hpos (legalSize?_sizeWord d))

/-! The digest -/

/-- A digest has `size / 8` bytes: the rate lanes hold that many (R93, R120). -/
theorem length_sha3 (d : DigestSize) (bs : List Byte) : (sha3 d bs).length = digestBytes d := by
  rw [sha3, List.length_take, length_laneBytes, ← rateBytes_eq]
  exact Nat.min_eq_left (digestBytes_le d)

/-- The padded bytes of a whole message are the least multiple of `rate_bytes` above `MLEN` in number (R113). -/
theorem length_paddedBytes_of_messageInv {s : State} (d : DigestSize) (h : s.messageInv) :
    (paddedBytes d s.msg.bytes).length = leastMultipleAbove d s.mlen := by
  rw [length_paddedBytes, Memory.length_bytes_of_holds h]

/-- Settles O43: `HASH` completes, and the closed form of the state it leaves holds the digest and the padded message. -/
theorem hashLeavesTheSha3Digest : Obligations.HashLeavesTheSha3Digest := by
  intro s d he hm hcap
  obtain ⟨t, ht, hhash⟩ := exec_hash_of_fits he hm hcap
  obtain ⟨a, ha⟩ := State.hashed_of_messageInv d hm
  obtain rfl := Option.some.inj (ht.symm.trans ha)
  have hlen := length_paddedBytes_of_messageInv d hm
  have hblk : (paddedBytes d s.msg.bytes).length / rateBytes d = s.mlen / rateBytes d + 1 :=
    hlen ▸ leastMultipleAbove_div_rateBytes d s.mlen
  have hout : (Memory.ofBytes (sha3 d s.msg.bytes)).holds (BitVec.ofNat 13 (digestBytes d)).toNat := by
    rw [toNat_ofNat_digestBytes, ← digestBytes, ← length_sha3 d s.msg.bytes]
    exact Memory.holds_ofBytes _
  have hmsg : (Memory.ofBytes (paddedBytes d s.msg.bytes)).bytes = s.msg.bytes ++ padBytes (padCount d s.mlen) := by
    rw [Memory.bytes_ofBytes, paddedBytes, Memory.length_bytes_of_holds hm]
  exact ⟨_, hhash, Memory.bytes_ofBytes _, hout, toNat_ofNat_digestBytes d, hmsg, Memory.holds_ofBytes _, hlen, hblk, rfl, rfl, rfl⟩

/-! Independence of earlier contents -/

/-- What `HASH` writes, as it stands in `t`, with every other register as in `u` (R25). -/
def State.hashWritesOver (t u : State) : State :=
  ((((u.setLanes t.lanes).setSize t.size).setMsg t.msg t.mlen).setBlk t.blk).setOut t.out t.olen

section Over
variable (t u : State) (d : DigestSize)

@[simp] theorem State.hashWritesOver_msg : (t.hashWritesOver u).msg = t.msg := rfl
@[simp] theorem State.hashWritesOver_blk : (t.hashWritesOver u).blk = t.blk := rfl

/-- Appending bytes reads and writes `MSG` and `MLEN` alone (R111). -/
theorem State.appendedAll_hashWritesOver (bs : List Byte) :
    (t.hashWritesOver u).appendedAll bs = (t.appendedAll bs).hashWritesOver u := by
  induction bs generalizing t with
  | nil => rfl
  | cons b bs ih => exact ih (t.appended b)

/-- Absorbing a block reads and writes registers that `HASH` writes, and no other (R92). -/
theorem State.absorbedBlock_hashWritesOver :
    (t.hashWritesOver u).absorbedBlock d = (t.absorbedBlock d).map (·.hashWritesOver u) := by
  simp only [State.absorbedBlock, State.hashWritesOver_msg, State.hashWritesOver_blk]
  cases t.msg.readWords (wordAddress d t.blk 0) (rateLanes d) <;> rfl

theorem State.absorbedBlocks_hashWritesOver (n : Nat) :
    State.absorbedBlocks d n (t.hashWritesOver u) = (State.absorbedBlocks d n t).map (·.hashWritesOver u) := by
  induction n generalizing t with
  | zero => rfl
  | succ n ih =>
    rw [State.absorbedBlocks, State.absorbedBlocks, State.absorbedBlock_hashWritesOver]
    cases t.absorbedBlock d with
    | none => rfl
    | some v => exact ih v

end Over

/-- From the same message, `INIT` leaves the same in every register that `HASH` writes (R90). -/
theorem State.initialised_hashWritesOver {s u : State} (d : DigestSize) (hmsg : s.msg = u.msg) (hmlen : s.mlen = u.mlen) :
    u.initialised d = (s.initialised d).hashWritesOver u := by
  simp only [State.hashWritesOver, State.initialised_msg, State.initialised_mlen, hmsg, hmlen]
  rfl

/-- From the same message, `HASH` leaves the same in every register that it writes (R123). -/
theorem State.hashed_hashWritesOver {s u : State} (d : DigestSize) (hmsg : s.msg = u.msg) (hmlen : s.mlen = u.mlen) :
    u.hashed d = (s.hashed d).map (·.hashWritesOver u) := by
  have hpad : (u.initialised d).padded d = ((s.initialised d).padded d).hashWritesOver u := by
    rw [State.initialised_hashWritesOver d hmsg hmlen]
    exact State.appendedAll_hashWritesOver _ _ _
  rw [State.hashed, State.hashed, State.absorbedMessage, State.absorbedMessage, hpad, State.absorbedBlocks_hashWritesOver,
    Option.map_map, Option.map_map]
  rfl

/-- A `HASH` that leaves `ERR = 0` in a running core had a legal size and made its state change (R120). -/
theorem exists_hashed_of_exec {s t : State} {size : BitVec 16} (he : s.err = 0) (hexec : exec (.hash size) s = .next t) (ht : t.err = 0) :
    ∃ d, size = sizeWord d ∧ s.hashed d = some t := by
  rcases exec_next hexec with ⟨hne, -⟩ | ⟨-, f, rfl⟩ | ⟨-, hc⟩
  · exact absurd he hne
  · exact absurd ht (faultCode_ne_zero f)
  · cases hc with
    | hash hd hf hhashed => exact ⟨_, legalSize?_eq_some.mp hd, hhashed⟩

/-- Settles O44: both runs made the state change of the same size, the second leaves what the first wrote over its own other registers. -/
theorem hashDependsOnTheMessageAlone : Obligations.HashDependsOnTheMessageAlone := by
  intro s u s' u' size hes heu hmsg hmlen hs hu hs' hu'
  obtain ⟨d, rfl, hsd⟩ := exists_hashed_of_exec hes hs hs'
  obtain ⟨d', hsize, hud⟩ := exists_hashed_of_exec heu hu hu'
  obtain rfl : d = d' := Option.some.inj <| (legalSize?_sizeWord d).symm.trans <| legalSize?_eq_some.mpr hsize
  rw [State.hashed_hashWritesOver d hmsg hmlen, hsd] at hud
  obtain rfl := Option.some.inj hud
  obtain ⟨a, m, n, o, l, rfl, -⟩ := State.hashed_writes hsd
  exact ⟨rfl, rfl, rfl, rfl, rfl, rfl, rfl, rfl⟩

/-! Faults -/

/-- A running core raises BufferOverflow on `HASH` of a legal size when the padded length passes the capacity (R138). -/
theorem exec_hash_of_bufferOverflow {s : State} {d : DigestSize} (he : s.err = 0) (hcap : exceedsCap s (leastMultipleAbove d s.mlen)) :
    exec (.hash (sizeWord d)) s = .next (s.setErr 8 (encode (.hash (sizeWord d)))) :=
  (whenRunning_of_running he).trans <| (whenLegalSize_of_legal (legalSize?_sizeWord d)).trans <|
    require_of_eq_false (fits_eq_false.mpr hcap)

/-- The words of the digest sizes are the four numbers of R4. -/
theorem exists_sizeWord_iff {size : BitVec 16} : (∃ d, size = sizeWord d) ↔ size.toNat ∈ [224, 256, 384, 512] := by
  simp only [← legalSize?_eq_some, ← Option.ne_none_iff_exists', ne_eq, legalSize?_eq_none, not_not]

/-- The padded length fits an unbounded buffer, and that of the empty message, one block, every buffer R4 allows. -/
theorem not_exceedsCap_leastMultipleAbove {s : State} (d : DigestSize) (hwf : s.config.wf)
    (h : s.config.msgCap = none ∨ s.mlen = 0) : ¬ exceedsCap s (leastMultipleAbove d s.mlen) := by
  rintro ⟨cap, hcap, hlt⟩
  rcases h with hnone | hempty
  · rw [hnone] at hcap
    cases hcap
  · have hone : leastMultipleAbove d 0 = rateBytes d := by simp [leastMultipleAbove]
    rw [hempty, hone] at hlt
    have hmin : 144 ≤ cap := hwf cap hcap
    have hblock := rateBytes_le d
    omega

/-- Settles O45: the tests of `HASH` in their order, with a completed `HASH` writing neither `ERR` nor `ERRCMD`. -/
theorem hashFaultsOnlyOnSizeOrOverflow : Obligations.HashFaultsOnlyOnSizeOrOverflow := by
  rintro s size ⟨⟨hwf, -⟩, hmsg, -⟩ he
  refine ⟨fun hill => exec_of_illegalSize (.inr rfl) he (legalSize?_eq_none.mpr hill), ?_, ?_, exists_sizeWord_iff,
    fun d => not_exceedsCap_leastMultipleAbove d hwf⟩
  · rintro d rfl hcap
    exact exec_hash_of_bufferOverflow he hcap
  · rintro d rfl hcap
    obtain ⟨t, ht, hhash⟩ := exec_hash_of_fits he hmsg hcap
    obtain ⟨a, m, n, o, l, rfl, -⟩ := State.hashed_writes ht
    exact ⟨_, hhash, he, rfl⟩

/-! `HEX` -/

/-- `HEX` of a byte sequence is the two characters of its first byte, then `HEX` of the rest (R122). -/
theorem toList_hex_cons (b : Byte) (bs : List Byte) : (hex (b :: bs)).toList = hexByte b ++ (hex bs).toList := by
  simp [hex]

/-- There is a digit for each of the sixteen values of a half byte. -/
theorem getElem?_hexDigits {n : Nat} (h : n < 16) : hexDigits[n]? = some (hexDigits.getD n '0') := by
  have hn : n < hexDigits.length := h
  simp [hn]

/-- The two characters of a byte are the digits of its halves, the high half first (R122). -/
theorem hexByte_digits (b : Byte) :
    (hexByte b)[0]? = hexDigits[b.toNat / 16]? ∧ (hexByte b)[1]? = hexDigits[b.toNat % 16]? := by
  have hb : b.toNat < 256 := b.isLt
  rw [getElem?_hexDigits (by omega), getElem?_hexDigits (by omega)]
  exact ⟨rfl, rfl⟩

/-- Settles O47, by induction on the bytes: each byte puts its two digits before those of the rest. -/
theorem hexHasTwoDigitsPerByte : Obligations.HexHasTwoDigitsPerByte := by
  intro bs
  induction bs with
  | nil => exact ⟨rfl, nofun⟩
  | cons c bs ih =>
    obtain ⟨hlen, hdigits⟩ := ih
    have htwo : (hexByte c).length = 2 := rfl
    rw [toList_hex_cons]
    refine ⟨by rw [List.length_append, htwo, hlen, List.length_cons]; omega, fun k b hk => ?_⟩
    cases k with
    | zero =>
      obtain rfl := Option.some.inj hk
      exact hexByte_digits c
    | succ k => exact hdigits k b hk

end Sys2Proof.Machine
end

section
/-! PROOF. The exceptions: the halted core, which fault a command raises and what it writes (60_exceptions.md R130 to R141). -/

namespace Sys2Proof.Machine

/-! The halted core -/

/-- A halted core ignores every word at its port, legal or not (R140). -/
theorem runCommand_of_halted {s : State} (h : s.err ≠ 0) (w : CmdWord) (din : Lane) : runCommand w din s = .next s :=
  whenRunning_of_halted h

/-- Settles O9: commands and words stop at the test of `ERR`, which no host read and no reset makes. -/
theorem haltedCoreIgnoresEveryWord : Obligations.HaltedCoreIgnoresEveryWord := by
  intro s rest he
  refine ⟨fun i => exec_of_halted i he, fun w din hin => ?_, fun r hin hsize => ?_, fun k b hin hk hb => ?_, fun hin => ?_⟩
  · exact (step_of_input hin).trans (runCommand_of_halted (s := s.setInput rest) he w din)
  · rcases statusReply_cases s r with ⟨v, hv, hreply⟩ | ⟨hr, hc, -⟩
    · exact ⟨v, hv, step_of_readStatus hin hreply⟩
    · simp [hsize hr] at hc
  · exact (step_of_input hin).trans (readOut_of_read (s := s.setInput rest) hk hb)
  · exact ⟨_, step_of_input hin, rfl, rfl⟩

/-! What a fault writes -/

/-- Settles O11: the port records the word it cannot decode, and a faulting command its encoding, which is the word it was decoded
from. -/
theorem faultWritesErrAndErrcmdOnly : Obligations.FaultWritesErrAndErrcmdOnly := by
  intro s t w din rest he hin hstep ht
  rw [step_of_input hin] at hstep
  rcases runCommand_next hstep with ⟨hne, -⟩ | ⟨-, -, rfl⟩ | ⟨-, i, hd, hexec⟩
  · exact absurd he hne
  · exact ⟨.illegalCommand, rfl⟩
  · rcases exec_next hexec with ⟨hne, -⟩ | ⟨-, f, rfl⟩ | ⟨-, hc⟩
    · exact absurd he hne
    · obtain ⟨hw, -⟩ := encodeOfDecodeIsTheWord w din i hd
      exact ⟨f, hw ▸ rfl⟩
    · exact absurd (hc.err_eq.trans he) ht

/-! NotConfigured -/

/-- The four commands that read neither `A` nor `SIZE` raise IllegalSize and BufferOverflow only (R132). -/
theorem err_of_not_readsConfig {i : Instr} {s t : State} (hi : readsConfig i = false) (he : s.err = 0)
    (h : exec i s = .next t) : t.err = 0 ∨ t.err = 3 ∨ t.err = 8 := by
  have hrun {k : Host.Outcome State Fault Refusal} (hk : whenRunning s k = .next t) : k = .next t :=
    (whenRunning_of_running he).symm.trans hk
  cases i with
  | theta | rhopi | chi | iota | round | permute | absorb | absblk | squeeze | pad => cases hi
  | init size =>
    rcases whenLegalSize_next (hrun h) with ⟨-, rfl⟩ | ⟨d, -, hnext⟩
    · exact .inr (.inl rfl)
    · obtain rfl := Host.Outcome.next.inj hnext
      exact .inl he
  | mclr =>
    obtain rfl := Host.Outcome.next.inj (hrun h)
    exact .inl he
  | push byte =>
    rcases require_next (hrun h) with ⟨-, rfl⟩ | ⟨-, hnext⟩
    · exact .inr (.inr rfl)
    · obtain rfl := Host.Outcome.next.inj hnext
      exact .inl he
  | hash size =>
    rcases whenLegalSize_next (hrun h) with ⟨-, rfl⟩ | ⟨d, -, hfits⟩
    · exact .inr (.inl rfl)
    · rcases require_next hfits with ⟨-, rfl⟩ | ⟨-, hhashed⟩
      · exact .inr (.inr rfl)
      · obtain ⟨a, m, n, o, l, rfl, -⟩ := State.hashed_writes (fromMessage_next hhashed)
        exact .inl he

/-- Settles O13: the ten readers test `CFG` first, and of the others none has a test that raises code 2. -/
theorem notConfiguredIsRaisedByTheTenReaders : Obligations.NotConfiguredIsRaisedByTheTenReaders := by
  intro i s he
  refine ⟨fun hi hc => exec_of_not_cfg hi he hc, fun hi t h => ?_⟩
  rcases err_of_not_readsConfig hi he h with h | h | h <;> simp [h]

/-! The table of faults -/

section Table
variable {i : Instr} {s : State} {code : BitVec 4}

/-- An operand value that the table calls illegal faults as tabled, once `CFG` is no obstacle (R133 to R136). -/
theorem exec_of_operandFault (he : s.err = 0) (hcfg : readsConfig i = true → s.cfg = true) (h : operandFault s i = some code) :
    exec i s = .next (s.setErr code (encode i)) := by
  cases i with
  | theta | rhopi | chi | permute | absblk | mclr | push | pad => cases h
  | init size | hash size =>
    obtain ⟨hill, hcode⟩ := Option.ite_none_left_eq_some.mp h
    obtain rfl := Option.some.inj hcode
    exact exec_of_illegalSize (by simp) he (legalSize?_eq_none.mpr hill)
  | iota rnd | round rnd =>
    obtain ⟨hrnd, rfl⟩ := Option.ite_some_none_eq_some.mp h
    exact exec_of_illegalRound (by simp) he (hcfg rfl) hrnd
  | absorb idx din =>
    obtain ⟨d, hd, hfault⟩ := Option.bind_eq_some_iff.mp h
    obtain ⟨hidx, rfl⟩ := Option.ite_some_none_eq_some.mp hfault
    exact exec_absorb_of_illegalLaneIndex din he (hcfg rfl) hd hidx
  | squeeze len =>
    obtain ⟨hlen, rfl⟩ := Option.ite_some_none_eq_some.mp h
    exact exec_squeeze_of_illegalLength he (hcfg rfl) hlen

/-- A buffer bound that the table gives faults as tabled, once `CFG` is no obstacle (R137, R138). -/
theorem exec_of_bufferFault (he : s.err = 0) (hcfg : readsConfig i = true → s.cfg = true) (h : bufferFault s i = some code) :
    exec i s = .next (s.setErr code (encode i)) := by
  cases i with
  | theta | rhopi | chi | iota | round | permute | init | absorb | squeeze | mclr => cases h
  | absblk =>
    obtain ⟨d, hd, hfault⟩ := Option.bind_eq_some_iff.mp h
    obtain ⟨hblk, rfl⟩ := Option.ite_some_none_eq_some.mp hfault
    exact exec_absblk_of_bufferUnderrun he (hcfg rfl) hd (by rwa [← Nat.succ_mul])
  | push byte =>
    obtain ⟨hcap, rfl⟩ := Option.ite_some_none_eq_some.mp h
    exact exec_push_of_bufferOverflow he byte hcap
  | pad =>
    obtain ⟨d, hd, hfault⟩ := Option.bind_eq_some_iff.mp h
    obtain ⟨hcap, rfl⟩ := Option.ite_some_none_eq_some.mp hfault
    exact exec_pad_of_bufferOverflow he (hcfg rfl) hd (by rwa [paddedLength_eq])
  | hash size =>
    obtain ⟨d, hd, hfault⟩ := Option.bind_eq_some_iff.mp h
    obtain ⟨hcap, rfl⟩ := Option.ite_some_none_eq_some.mp hfault
    obtain rfl := legalSize?_eq_some.mp hd
    exact exec_hash_of_bufferOverflow he hcap

/-- In a core that is not configured the table's first entry, code 2, applies to the ten readers (R132, R141). -/
theorem tabledFault_of_not_cfg (hi : readsConfig i = true) (hc : s.cfg = false) : tabledFault i s = some 2 :=
  if_pos ⟨hi, hc⟩

/-- Once `CFG` is no obstacle the table gives the operand fault, and where there is none the buffer fault (R141). -/
theorem tabledFault_of_configured (hcfg : readsConfig i = true → s.cfg = true) :
    tabledFault i s = (operandFault s i).or (bufferFault s i) :=
  if_neg fun ⟨hi, hc⟩ => by simp [hcfg hi] at hc

/-- A running core raises the fault that the table gives (R130, R141). -/
theorem exec_of_tabledFault (he : s.err = 0) (h : tabledFault i s = some code) : exec i s = .next (s.setErr code (encode i)) := by
  by_cases hc : readsConfig i = true ∧ s.cfg = false
  · obtain ⟨hi, hc⟩ := hc
    rw [tabledFault_of_not_cfg hi hc] at h
    exact Option.some.inj h ▸ exec_of_not_cfg hi he hc
  · have hcfg : readsConfig i = true → s.cfg = true := by simpa using hc
    rw [tabledFault_of_configured hcfg] at h
    rcases Option.or_eq_some_iff.mp h with hop | ⟨-, hbuf⟩
    · exact exec_of_operandFault he hcfg hop
    · exact exec_of_bufferFault he hcfg hbuf

/-- An operand of `INIT` or `HASH` that the table does not call illegal names a digest size (R133). -/
theorem exists_legalSize_of_no_operandFault {size : BitVec 16} (hi : i = .init size ∨ i = .hash size) (h : operandFault s i = none) :
    ∃ d, legalSize? size = some d := by
  refine Option.ne_none_iff_exists'.mp fun hnone => ?_
  have hill := legalSize?_eq_none.mp hnone
  rcases hi with rfl | rfl
  all_goals exact nomatch (if_neg hill).symm.trans h

/-- In a state that meets the invariant a command for which the table gives no fault passes all its tests. -/
theorem exists_completes_of_no_tabledFault (hinv : s.inv) (h : tabledFault i s = none) : ∃ t, Completes s i t := by
  obtain ⟨-, hmsg, -, hsize, -⟩ := hinv
  have hcfg : readsConfig i = true → s.cfg = true := by
    intro hi
    by_contra hc
    rw [tabledFault_of_not_cfg hi (Bool.eq_false_iff.mpr hc)] at h
    cases h
  have hreads (hi : readsConfig i = true) : ∃ d, sizeOf? s = some d := Option.isSome_iff_exists.mp (hsize (hcfg hi))
  rw [tabledFault_of_configured hcfg] at h
  obtain ⟨hop, hbuf⟩ := Option.or_eq_none_iff.mp h
  cases i with
  | theta => exact ⟨_, .theta (hcfg rfl)⟩
  | rhopi => exact ⟨_, .rhopi (hcfg rfl)⟩
  | chi => exact ⟨_, .chi (hcfg rfl)⟩
  | permute => exact ⟨_, .permute (hcfg rfl)⟩
  | iota rnd =>
    have hrnd : rnd.toNat < 24 := by simpa [operandFault] using hop
    exact ⟨_, .iota (hcfg rfl) (decide_eq_true hrnd)⟩
  | round rnd =>
    have hrnd : rnd.toNat < 24 := by simpa [operandFault] using hop
    exact ⟨_, .round (hcfg rfl) (decide_eq_true hrnd)⟩
  | init size =>
    obtain ⟨d, hd⟩ := exists_legalSize_of_no_operandFault (.inl rfl) hop
    exact ⟨_, .init hd⟩
  | absorb idx din =>
    obtain ⟨d, hd⟩ := hreads rfl
    have hidx : idx.toNat < rate d / 64 := by simpa [operandFault, hd] using hop
    exact ⟨_, .absorb (hcfg rfl) hd hidx⟩
  | absblk =>
    obtain ⟨d, hd⟩ := hreads rfl
    have hblk : s.blk * rateBytes d + rateBytes d ≤ s.mlen := by simpa [bufferFault, hd, Nat.succ_mul] using hbuf
    obtain ⟨t, ht⟩ := Option.isSome_iff_exists.mp (State.absorbedBlock_isSome hblk hmsg)
    exact ⟨t, .absblk (hcfg rfl) hd hblk ht⟩
  | squeeze len =>
    obtain ⟨d, hd⟩ := hreads rfl
    have hlen : squeezeBytes len ≠ 0 := by simpa [operandFault, squeezeBytes] using hop
    exact ⟨_, .squeeze (hcfg rfl) hlen hd⟩
  | mclr => exact ⟨_, .mclr⟩
  | push byte =>
    have hcap : ¬ exceedsCap s (s.mlen + 1) := by simpa [bufferFault] using hbuf
    exact ⟨_, .push (fits_eq_true.mpr hcap)⟩
  | pad =>
    obtain ⟨d, hd⟩ := hreads rfl
    have hcap : ¬ exceedsCap s (paddedLength d s.mlen) := by simpa [bufferFault, hd, paddedLength_eq] using hbuf
    exact ⟨_, .pad (hcfg rfl) hd (fits_eq_true.mpr hcap)⟩
  | hash size =>
    obtain ⟨d, hd⟩ := exists_legalSize_of_no_operandFault (.inr rfl) hop
    have hcap : ¬ exceedsCap s (paddedLength d s.mlen) := by simpa [bufferFault, hd, paddedLength_eq] using hbuf
    obtain ⟨t, ht⟩ := Option.isSome_iff_exists.mp (State.hashed_isSome d hmsg)
    exact ⟨t, .hash hd (fits_eq_true.mpr hcap) ht⟩

/-- A command that completes leaves `ERRCMD` (R25). -/
theorem Completes.errcmd_eq {t : State} (hc : Completes s i t) : t.errcmd = s.errcmd := by
  have hw := hc.writesOnly
  cases i with
  | theta | rhopi | chi | round | permute | init | absblk | squeeze | mclr => exact (congrArg State.errcmd hw :)
  | iota | absorb | push | pad | hash =>
    obtain ⟨ht, -⟩ := hw
    exact (congrArg State.errcmd ht :)

end Table

/-- Settles O12: the port tests `ERR`, then decodes, and a decoded command faults as tabled or passes all its tests. -/
theorem commandsFaultExactlyAsTabled : Obligations.CommandsFaultExactlyAsTabled := by
  intro s w din rest hinv hin
  have hstep : step s = runCommand w din (s.setInput rest) := step_of_input hin
  rw [hstep]
  refine ⟨fun he => runCommand_of_halted (s := s.setInput rest) he w din, fun he => ⟨fun e hd => ?_, fun i hd => ?_⟩⟩
  · exact runCommand_of_error (s := s.setInput rest) he hd
  rw [runCommand_of_decode (s := s.setInput rest) he hd]
  refine ⟨fun code h => ?_, fun h => ?_⟩
  · obtain ⟨hw, -⟩ := encodeOfDecodeIsTheWord w din i hd
    rw [← hw]
    exact exec_of_tabledFault (s := s.setInput rest) he h
  · obtain ⟨t, hc⟩ := exists_completes_of_no_tabledFault (s := s.setInput rest) hinv h
    exact ⟨t, exec_of_completes he hc, hc.err_eq.trans he, hc.errcmd_eq⟩

end Sys2Proof.Machine
end

section
/-! PROOF. The registers that reset leaves without a value, and the idle core (70_reset_and_hazards.md R161, R164). -/

namespace Sys2Proof.Machine

/-! The lanes and `SIZE` while `CFG = 0` -/

/-- The state with other contents in the two registers to which reset gives no value, the lanes and `SIZE` (R24, R161). -/
def State.withUnspecified (s : State) (a : LaneArray) (n : BitVec 16) : State := { s with lanes := a, size := n }

section Unspecified
variable {s t : State} (a : LaneArray) (n : BitVec 16)

/-- `INIT` writes over both registers, whatever they hold (R90). -/
theorem State.initialised_withUnspecified (d : DigestSize) : (s.withUnspecified a n).initialised d = s.initialised d := rfl

/-- `HASH` begins with `INIT`, so it depends on neither register (R120). -/
theorem State.hashed_withUnspecified (d : DigestSize) : (s.withUnspecified a n).hashed d = s.hashed d := by
  simp only [State.hashed, State.absorbedMessage, State.initialised_withUnspecified]

/-- While `CFG = 0` a command that leaves `CFG = 0` neither reads nor writes the two registers, and one that sets `CFG` writes over
them (R161). -/
theorem exec_withUnspecified {i : Instr} (hc : s.cfg = false) (h : exec i s = .next t) :
    (t.cfg = false ∧ exec i (s.withUnspecified a n) = .next (t.withUnspecified a n)) ∨
      (t.cfg = true ∧ exec i (s.withUnspecified a n) = .next t) := by
  by_cases he : s.err = 0
  case neg =>
    have he' : (s.withUnspecified a n).err ≠ 0 := he
    obtain rfl := Host.Outcome.next.inj <| (exec_of_halted i he).symm.trans h
    exact .inl ⟨hc, exec_of_halted i he'⟩
  have he' : (s.withUnspecified a n).err = 0 := he
  have hrun {k : Host.Outcome State Fault Refusal} (hk : whenRunning s k = .next t) : k = .next t :=
    (whenRunning_of_running he).symm.trans hk
  cases i with
  | theta | rhopi | chi | iota | round | permute | absorb | absblk | squeeze | pad =>
    obtain rfl := Host.Outcome.next.inj <| (exec_of_not_cfg rfl he hc).symm.trans h
    exact .inl ⟨hc, exec_of_not_cfg rfl he' hc⟩
  | init size =>
    rcases whenLegalSize_next (hrun h) with ⟨hd, rfl⟩ | ⟨d, hd, hnext⟩
    · exact .inl ⟨hc, exec_of_illegalSize (.inl rfl) he' hd⟩
    · obtain rfl := Host.Outcome.next.inj hnext
      exact .inr ⟨rfl, exec_of_completes he' (.init hd)⟩
  | mclr =>
    obtain rfl := Host.Outcome.next.inj (hrun h)
    exact .inl ⟨hc, exec_of_completes he' .mclr⟩
  | push byte =>
    rcases require_next (hrun h) with ⟨hf, rfl⟩ | ⟨hf, hnext⟩
    · exact .inl ⟨hc, exec_push_of_bufferOverflow he' byte (fits_eq_false.mp hf)⟩
    · obtain rfl := Host.Outcome.next.inj hnext
      exact .inl ⟨hc, exec_of_completes he' (.push hf)⟩
  | hash size =>
    rcases whenLegalSize_next (hrun h) with ⟨hd, rfl⟩ | ⟨d, hd, hfits⟩
    · exact .inl ⟨hc, exec_of_illegalSize (.inr rfl) he' hd⟩
    obtain rfl := legalSize?_eq_some.mp hd
    rcases require_next hfits with ⟨hf, rfl⟩ | ⟨hf, hnext⟩
    · exact .inl ⟨hc, exec_hash_of_bufferOverflow he' (fits_eq_false.mp hf)⟩
    · have ht := fromMessage_next hnext
      have hcfg : t.cfg = true := by
        obtain ⟨_, _, _, _, _, rfl, -⟩ := State.hashed_writes ht
        rfl
      have hlen : fits s (paddedLength d s.mlen) = true := (paddedLength_eq d s.mlen).symm ▸ hf
      exact .inr ⟨hcfg, exec_of_completes he' (.hash hd hlen <| (State.hashed_withUnspecified a n d).trans ht)⟩

/-- While `CFG = 0` a read of SR1 is refused (R20). -/
theorem statusReply_size_of_not_cfg (hc : s.cfg = false) : statusReply s .size = .statusRefused .size := by
  simp [statusReply, statusValue, hc]

/-- While `CFG = 0` no status read gets a reply that depends on the two registers: only SR1 shows one of them, and its read is
refused. -/
theorem statusReply_withUnspecified (hc : s.cfg = false) (r : StatusReg) :
    statusReply (s.withUnspecified a n) r = statusReply s r := by
  cases r with
  | status | mlen | blk | olen | errcmd => rfl
  | size =>
    have hrefused : statusReply (s.withUnspecified a n) .size = .statusRefused .size := statusReply_size_of_not_cfg hc
    exact hrefused.trans (statusReply_size_of_not_cfg hc).symm

end Unspecified

/-- Settles O18: the other contents stay where `CFG` stays 0 and are gone where it is set; the status reads are compared one by one. -/
theorem unspecifiedLanesAndSizeAreNeverSeen : Obligations.UnspecifiedLanesAndSizeAreNeverSeen := by
  refine ⟨fun i s t a n hc h => ?_, fun s a n r hc => ⟨statusReply_withUnspecified a n hc r, ?_⟩⟩
  · rcases exec_withUnspecified a n hc h with ⟨ht, hexec⟩ | ⟨ht, hexec⟩
    · exact hexec.trans <| congrArg _ (if_neg (by simp [ht])).symm
    · exact hexec.trans <| congrArg _ (if_pos ht).symm
  · exact statusReply_size_of_not_cfg hc

/-! The idle core -/

/-- Settles O8: with no action to take, the next action is none. -/
theorem idleCoreStaysAsItIs : Obligations.IdleCoreStaysAsItIs := by
  intro s h
  simp [step, nextAction, h]

end Sys2Proof.Machine
end
